-- ==== Sys2Proof/Word.lean ====
section
/-! DEFINITION. The word types of the block: bytes and the 80-bit command word. -/

namespace Sys2Proof

/-- One byte of a buffer, a plane or the sink. -/
abbrev Byte := BitVec 8

/-- One command word: `OP[79:72] ARG[71:64] VAL[63:0]` (30_encoding.md R70). -/
abbrev CommandWord := BitVec 80

end Sys2Proof
end

