-- ==== Sys2Proof/Syntax.lean ====
section
/-! DEFINITION. The thirteen commands, one constructor per row of spec/opcode_table.json. -/

namespace Sys2Proof

/-- The commands of 30_encoding.md R72 with the operands of R71. -/
inductive Instr where
  /-- `CFG width, height, depth, chroma` (45_config.md R211). -/
  | cfg (width height : BitVec 16) (depth chroma : BitVec 8)
  /-- `FRAME fw, fh` (44_rasterizer.md R181). -/
  | frame (fw fh : BitVec 16)
  /-- `U n, value` (40_bitwriter.md R102); `n` is the whole of `ARG`, legal 0 to 64. -/
  | u (n : BitVec 8) (value : BitVec 64)
  /-- `UE v`, `v` unsigned (41_expgolomb.md R121). -/
  | ue (v : BitVec 32)
  /-- `SE v`, `v` two's complement (41_expgolomb.md R123). -/
  | se (v : BitVec 32)
  /-- `ALIGN0` (40_bitwriter.md R104). -/
  | align0
  /-- `BITPOS` (40_bitwriter.md R105). -/
  | bitpos
  /-- `ALIGNED` (40_bitwriter.md R106). -/
  | aligned
  /-- `TRAIL` (42_rbsp.md R141). -/
  | trail
  /-- `EPB` (42_rbsp.md R143). -/
  | epb
  /-- `NAL ref, type, sc` (43_nal.md R161). -/
  | nal (ref : BitVec 2) (nalType : BitVec 5) (sc : Bool)
  /-- `MBPCM mb_x, mb_y` (44_rasterizer.md R183). -/
  | mbpcm (mbX mbY : BitVec 16)
  /-- `PICPCM` (44_rasterizer.md R187). -/
  | picpcm
deriving DecidableEq, Repr

end Sys2Proof
end

