-- ==== Sys2Proof/WellFormed.lean ====
section
/-! DEFINITION. Which commands have operands that are legal as an encoding (30_encoding.md R74 c, d). -/

namespace Sys2Proof

/-- The `nal_unit_type` values of the document, 1, 5, 7 and 8 (30_encoding.md R74 d). -/
def nalTypeLegal (t : BitVec 5) : Bool :=
  t == 1#5 || t == 5#5 || t == 7#5 || t == 8#5

/-- A command is well formed when no operand is one that R74 calls illegal: `U` has `n ≤ 64` (c)
and `NAL` has a type of the document's set (d). Every other operand value is legal as an encoding;
one out of range raises the fault of its own rule (93_implementation_defined.md section 2). -/
def Instr.wellFormed (i : Instr) : Bool :=
  match i with
  | .cfg _ _ _ _ => true
  | .frame _ _ => true
  | .u n _ => decide (n.toNat ≤ 64)
  | .ue _ => true
  | .se _ => true
  | .align0 => true
  | .bitpos => true
  | .aligned => true
  | .trail => true
  | .epb => true
  | .nal _ t _ => nalTypeLegal t
  | .mbpcm _ _ => true
  | .picpcm => true

end Sys2Proof
end

