-- ==== Sys2Proof/Decode.lean ====
section
/-! DEFINITION. The command word: its fields, the decoder, the encoder, and the opcode table's numbering. -/

namespace Sys2Proof

/-- `OP`, bits 79:72 (30_encoding.md R70). -/
def opField (w : CommandWord) : BitVec 8 := w.extractLsb' 72 8

/-- `ARG`, bits 71:64 (30_encoding.md R70). -/
def argField (w : CommandWord) : BitVec 8 := w.extractLsb' 64 8

/-- `VAL`, bits 63:0 (30_encoding.md R70). -/
def valField (w : CommandWord) : BitVec 64 := w.extractLsb' 0 64

/-- The command word with the three fields given (30_encoding.md R70). -/
def commandWord (op arg : BitVec 8) (val : BitVec 64) : CommandWord := op ++ (arg ++ val)

/-- Why a word is no command; each raises `IllegalCommand` (30_encoding.md R74). -/
inductive DecodeError where
  /-- R74 (a): an `OP` that is none of the thirteen. -/
  | reservedOpcode
  /-- R74 (b): a set bit of a reserved `ARG`. -/
  | reservedArg
  /-- R74 (b): a set bit of the reserved part of `VAL`. -/
  | reservedVal
  /-- R74 (d): `NAL` with `ARG[7] = 1`. -/
  | forbiddenZeroBit
deriving DecidableEq, Repr

/-- Format `Z`: no operand; `ARG` and `VAL` are reserved (30_encoding.md R71). -/
def decodeZ (i : Instr) (arg : BitVec 8) (val : BitVec 64) : Except DecodeError Instr :=
  if arg ≠ 0#8 then .error .reservedArg
  else if val ≠ 0#64 then .error .reservedVal
  else .ok i

/-- Format `G`: a 32-bit operand in `VAL[31:0]` (30_encoding.md R71). -/
def decodeG (make : BitVec 32 → Instr) (arg : BitVec 8) (val : BitVec 64) : Except DecodeError Instr :=
  if arg ≠ 0#8 then .error .reservedArg
  else if val.extractLsb' 32 32 ≠ 0#32 then .error .reservedVal
  else .ok (make (val.extractLsb' 0 32))

/-- Format `D`: two 16-bit operands, `VAL[15:0]` and `VAL[31:16]` (30_encoding.md R71). -/
def decodeD (make : BitVec 16 → BitVec 16 → Instr) (arg : BitVec 8) (val : BitVec 64) :
    Except DecodeError Instr :=
  if arg ≠ 0#8 then .error .reservedArg
  else if val.extractLsb' 32 32 ≠ 0#32 then .error .reservedVal
  else .ok (make (val.extractLsb' 0 16) (val.extractLsb' 16 16))

/-- Format `C`: width, height, depth and chroma in `VAL[47:0]` (30_encoding.md R71). -/
def decodeC (arg : BitVec 8) (val : BitVec 64) : Except DecodeError Instr :=
  if arg ≠ 0#8 then .error .reservedArg
  else if val.extractLsb' 48 16 ≠ 0#16 then .error .reservedVal
  else .ok (.cfg (val.extractLsb' 0 16) (val.extractLsb' 16 16) (val.extractLsb' 32 8)
    (val.extractLsb' 40 8))

/-- Format `N`: the header byte in `ARG`, `emit_start_code` in `VAL[0]` (30_encoding.md R71). A type
outside the document's set is refused by the command itself, as R161's first lines have it. -/
def decodeN (arg : BitVec 8) (val : BitVec 64) : Except DecodeError Instr :=
  if arg.extractLsb' 7 1 ≠ 0#1 then .error .forbiddenZeroBit
  else if val.extractLsb' 1 63 ≠ 0#63 then .error .reservedVal
  else .ok (.nal (arg.extractLsb' 5 2) (arg.extractLsb' 0 5) (val.getLsbD 0))

/-- The opcode map of 30_encoding.md R72, total on every word: a command, or the reason there is none
(R74 a, b, d). Format `B` (`U`) names every bit of `ARG` and `VAL`; `n > 64` is refused by the command
itself, as R102's first line has it. -/
def decode (w : CommandWord) : Except DecodeError Instr :=
  let op := opField w
  let arg := argField w
  let val := valField w
  if op = 0x01#8 then decodeC arg val
  else if op = 0x02#8 then decodeD .frame arg val
  else if op = 0x10#8 then .ok (.u arg val)
  else if op = 0x11#8 then decodeG .ue arg val
  else if op = 0x12#8 then decodeG .se arg val
  else if op = 0x13#8 then decodeZ .align0 arg val
  else if op = 0x14#8 then decodeZ .bitpos arg val
  else if op = 0x15#8 then decodeZ .aligned arg val
  else if op = 0x20#8 then decodeZ .trail arg val
  else if op = 0x21#8 then decodeZ .epb arg val
  else if op = 0x30#8 then decodeN arg val
  else if op = 0x40#8 then decodeD .mbpcm arg val
  else if op = 0x41#8 then decodeZ .picpcm arg val
  else .error .reservedOpcode

/-- The `OP` of each command (30_encoding.md R72). -/
def Instr.opcode (i : Instr) : BitVec 8 :=
  match i with
  | .cfg _ _ _ _ => 0x01#8
  | .frame _ _ => 0x02#8
  | .u _ _ => 0x10#8
  | .ue _ => 0x11#8
  | .se _ => 0x12#8
  | .align0 => 0x13#8
  | .bitpos => 0x14#8
  | .aligned => 0x15#8
  | .trail => 0x20#8
  | .epb => 0x21#8
  | .nal _ _ _ => 0x30#8
  | .mbpcm _ _ => 0x40#8
  | .picpcm => 0x41#8

/-- The `ARG` of each command (30_encoding.md R71): `n` in format `B`, the header byte in format `N`,
else 0. -/
def Instr.argOperand (i : Instr) : BitVec 8 :=
  match i with
  | .u n _ => n
  | .nal r t _ => 0#1 ++ (r ++ t)
  | .cfg _ _ _ _ => 0#8
  | .frame _ _ => 0#8
  | .ue _ => 0#8
  | .se _ => 0#8
  | .align0 => 0#8
  | .bitpos => 0#8
  | .aligned => 0#8
  | .trail => 0#8
  | .epb => 0#8
  | .mbpcm _ _ => 0#8
  | .picpcm => 0#8

/-- The `VAL` of each command, its operands at the places of 30_encoding.md R71 and every reserved bit 0. -/
def Instr.valOperand (i : Instr) : BitVec 64 :=
  match i with
  | .cfg w h d c => 0#16 ++ (c ++ (d ++ (h ++ w)))
  | .frame a b => 0#32 ++ (b ++ a)
  | .u _ v => v
  | .ue v => 0#32 ++ v
  | .se v => 0#32 ++ v
  | .nal _ _ sc => 0#63 ++ BitVec.ofBool sc
  | .mbpcm a b => 0#32 ++ (b ++ a)
  | .align0 => 0#64
  | .bitpos => 0#64
  | .aligned => 0#64
  | .trail => 0#64
  | .epb => 0#64
  | .picpcm => 0#64

/-- The word of a command (30_encoding.md R70 to R72, R85). -/
def encode (i : Instr) : CommandWord := commandWord i.opcode i.argOperand i.valOperand

/-- The `match` value of a command's row of spec/opcode_table.json. -/
def Instr.tableMatch (i : Instr) : CommandWord :=
  match i with
  | .cfg _ _ _ _ => 0x01000000000000000000#80
  | .frame _ _ => 0x02000000000000000000#80
  | .u _ _ => 0x10000000000000000000#80
  | .ue _ => 0x11000000000000000000#80
  | .se _ => 0x12000000000000000000#80
  | .align0 => 0x13000000000000000000#80
  | .bitpos => 0x14000000000000000000#80
  | .aligned => 0x15000000000000000000#80
  | .trail => 0x20000000000000000000#80
  | .epb => 0x21000000000000000000#80
  | .nal _ _ _ => 0x30000000000000000000#80
  | .mbpcm _ _ => 0x40000000000000000000#80
  | .picpcm => 0x41000000000000000000#80

/-- The `mask` value of a command's row of spec/opcode_table.json. -/
def Instr.tableMask (i : Instr) : CommandWord :=
  match i with
  | .cfg _ _ _ _ => 0xFFFFFFFF000000000000#80
  | .frame _ _ => 0xFFFFFFFFFFFF00000000#80
  | .u _ _ => 0xFF800000000000000000#80
  | .ue _ => 0xFFFFFFFFFFFF00000000#80
  | .se _ => 0xFFFFFFFFFFFF00000000#80
  | .align0 => 0xFFFFFFFFFFFFFFFFFFFF#80
  | .bitpos => 0xFFFFFFFFFFFFFFFFFFFF#80
  | .aligned => 0xFFFFFFFFFFFFFFFFFFFF#80
  | .trail => 0xFFFFFFFFFFFFFFFFFFFF#80
  | .epb => 0xFFFFFFFFFFFFFFFFFFFF#80
  | .nal _ _ _ => 0xFF80FFFFFFFFFFFFFFFE#80
  | .mbpcm _ _ => 0xFFFFFFFFFFFF00000000#80
  | .picpcm => 0xFFFFFFFFFFFFFFFFFFFF#80

/-- The command word whose bits are `w`, of which the opcode table gives the low `nbits` (80 for every
row, so that bit 0 of the table is bit 0 of the word); bits above `nbits` are 0. -/
def tableWord (nbits w : Nat) : CommandWord := BitVec.ofNat 80 (w % 2 ^ nbits)

/-- What the decoder reads from an instruction numbered as spec/opcode_table.json numbers it. -/
def decodeTableWord (nbits w : Nat) : Option Instr :=
  match decode (tableWord nbits w) with
  | .ok i => some i
  | .error _ => none

end Sys2Proof
end

