-- ==== Sys2Proof/Config.lean ====
section
/-! DEFINITION. What the spec leaves as parameters of the block, and the one free value. -/

namespace Sys2Proof

/-- The two open parameters of the block, fixed for a run (00_scope.md R4, 20_memory.md R53):
`none` is "unbounded". A value of this type stands in State, so that every statement over all
states is a statement over all capacities (DESIGN CHOICE, log entry 2). -/
structure Config where
  /-- `BUF_CAP`, bytes of the RBSP buffer. -/
  bufCap : Option Nat
  /-- `ESC_CAP`, bytes of the escaped buffer. -/
  escCap : Option Nat
deriving DecidableEq, Repr

/-- Whether `n` bytes fit a capacity; an unbounded one takes any number (20_memory.md R53). -/
def capacityHolds (cap : Option Nat) (n : Nat) : Bool :=
  match cap with
  | none => true
  | some c => decide (n ≤ c)

/-- FREE VALUE (log entry 11): what the 64-bit RESULT field shows for a count of 2^64 or more,
which the spec does not state. Nothing constrains it. -/
opaque Config.wideResult : Nat → BitVec 64

end Sys2Proof
end

