-- ==== Sys2Proof/Machine/State.lean ====
section
/-! DEFINITION. The state of the block as plain data, and the state after reset (10_state.md). -/

namespace Sys2Proof.Machine

/-- The phase of the RBSP under construction, `PHASE` (10_state.md R14); the fourth 2-bit value never
occurs. -/
inductive Phase where
  /-- `OPEN`: bits may be appended to `BUF`. -/
  | rbspOpen
  /-- `TRAILED`: the trailing bits have been appended. -/
  | trailed
  /-- `ESCAPED`: `ESC` holds the escaped bytes. -/
  | escaped
deriving DecidableEq, Repr

/-- `DEPTH`, 8 or 12 bits a sample (10_state.md R15). -/
inductive BitDepth where
  | eight
  | twelve
deriving DecidableEq, Repr

/-- `CHROMA`, code 0 or 1 (10_state.md R15). -/
inductive Chroma where
  /-- Monochrome400, code 0. -/
  | mono400
  /-- Yuv420, code 1. -/
  | yuv420
deriving DecidableEq, Repr

/-- `BUF` and `USED`, the document's BitBuffer (10_state.md R12). -/
structure BitBuffer where
  /-- `BUF`, first byte first. -/
  buf : List Byte
  /-- `USED`, bits used in the last byte; 0 when the buffer ends on a byte boundary. -/
  used : Fin 8
deriving DecidableEq, Repr

/-- `W`, `H`, `DEPTH`, `CHROMA`, the document's FrameSpec (10_state.md R15). -/
structure FrameSpec where
  width : BitVec 16
  height : BitVec 16
  depth : BitDepth
  chroma : Chroma
deriving DecidableEq, Repr

/-- `FW`, `FH`, the declared size of the frame in frame memory (10_state.md R16). -/
structure FrameDims where
  fw : BitVec 16
  fh : BitVec 16
deriving DecidableEq, Repr

/-- The three planes of frame memory, each an address space of its own from 0 (20_memory.md R40, R46). -/
inductive Plane where
  /-- `PIX_Y` -/
  | y
  /-- `PIX_CB` -/
  | cb
  /-- `PIX_CR` -/
  | cr
deriving DecidableEq, Repr

/-- One plane of frame memory (10_state.md R21): the number of bytes the host has loaded and those of
them that are not 0, by strictly rising address. A loaded byte that is not listed is 0; an address at
or above `len` holds no byte (DESIGN CHOICE, log entries 4 and 5). -/
structure Memory where
  /-- `YLEN`, `CBLEN` or `CRLEN`. -/
  len : Nat
  cells : List Host.Cell
deriving DecidableEq, Repr

/-- The response word of 30_encoding.md R73, by its fields. -/
structure Response where
  /-- `STATUS`, 0 or a fault cause code. -/
  status : BitVec 8
  /-- `RESULT` -/
  result : BitVec 64
deriving DecidableEq, Repr

/-- The eight causes of a fault of the spec (60_exceptions.md R250). Raising one is a next state. -/
inductive Cause where
  | illegalCommand
  | configurationError
  | dimensionMismatch
  | bitDepthOutOfRange
  | sinkError
  | invariantViolation
  | sequenceError
  | capacityExceeded
deriving DecidableEq, Repr

/-- What the host can do to the block between two commands, or instead of one (20_memory.md R54). -/
inductive HostEvent where
  /-- Present one word on the command port. -/
  | command (w : CommandWord)
  /-- Load a plane of frame memory whole through the load port (DESIGN CHOICE, log entry 6). -/
  | load (p : Plane) (bytes : List Byte)
  /-- From here on the sink answers deliveries with `ok` (43_nal.md R164; log entry 7). -/
  | sinkAnswer (ok : Bool)
  /-- The reset event (70_reset_and_hazards.md R280). -/
  | reset
deriving DecidableEq, Repr

/-- Everything the spec gives the block (10_state.md), and the inputs and parameters its rules read. -/
structure State where
  /-- `BUF_CAP` and `ESC_CAP`: parameters, which no step writes (log entry 2). -/
  config : Config
  /-- `BUF` and `USED`. -/
  rbsp : BitBuffer
  /-- `PHASE`. -/
  phase : Phase
  /-- `ESC`. -/
  esc : List Byte
  /-- `W`, `H`, `DEPTH`, `CHROMA`; present exactly when `CFG_VALID = 1` (R15; log entry 3). -/
  cfg : Option FrameSpec
  /-- `FW`, `FH`; present exactly when `FRAME_VALID = 1` (R16; log entry 3). -/
  frame : Option FrameDims
  /-- `PIX_Y`, `YLEN`. -/
  pixY : Memory
  /-- `PIX_CB`, `CBLEN`. -/
  pixCb : Memory
  /-- `PIX_CR`, `CRLEN`. -/
  pixCr : Memory
  /-- `FAULT`. -/
  fault : Bool
  /-- `CAUSE`. -/
  cause : BitVec 8
  /-- `RES`. -/
  res : BitVec 64
  /-- `OUT`, the bytes delivered so far, first byte first. -/
  out : List Byte
  /-- The word last placed on the response port (20_memory.md R40); `none` before the first answer
  (log entry 9). -/
  response : Option Response
  /-- The sink's answer to the next delivery, an input (43_nal.md R164; log entry 7). -/
  sinkOk : Bool
  /-- What the host still presents, next item first, an input (10_state.md R11; log entry 1). -/
  input : List HostEvent
deriving DecidableEq, Repr

/-- Why the machine stops where the spec gives no behaviour. -/
inductive Fault where
  /-- A sample read outside the bytes of its plane. Raised by `MBPCM` and `PICPCM` when the host has
  loaded a shorter plane after `FRAME`; 20_memory.md R45 defines no behaviour for it. Safe: the model
  stops where a block might go on (log entry 5). -/
  | outOfPlaneRead
deriving DecidableEq, Repr

/-- Why an instruction has no meaning in the model. -/
inductive Refusal where
  /-- Raised by an arm of `exec` for an instruction that is not modelled; no arm does. Safe. -/
  | notModelled (mnemonic : String)
deriving DecidableEq, Repr

/-- The bit buffer with nothing in it (10_state.md R24). -/
def BitBuffer.empty : BitBuffer := { buf := [], used := 0 }

/-- A plane with nothing loaded (log entry 4). -/
def Memory.empty : Memory := { len := 0, cells := [] }

/-- The state after reset (10_state.md R24, 70_reset_and_hazards.md R280). `OUT` is empty at the start
of a run. R24 gives `W`, `H`, `DEPTH`, `CHROMA`, `FW`, `FH` no value and leaves frame memory
unspecified (DESIGN CHOICE, log entries 3 and 4); the parameters and inputs stand at unbounded
capacities, an accepting sink and nothing presented (DESIGN CHOICE, log entries 1, 2 and 7). -/
def State.reset : State where
  config := { bufCap := none, escCap := none }
  rbsp := BitBuffer.empty
  phase := .rbspOpen
  esc := []
  cfg := none
  frame := none
  pixY := Memory.empty
  pixCb := Memory.empty
  pixCr := Memory.empty
  fault := false
  cause := 0#8
  res := 0#64
  out := []
  response := none
  sinkOk := true
  input := []

end Sys2Proof.Machine
end

