-- ==== Sys2Proof/Machine/Operands.lean ====
section
/-! DEFINITION. What the operands of the commands and the fields of the output mean as bits and numbers. -/

namespace Sys2Proof.Machine

/-- The field `u(n)`: the low `n` bits of `v`, most significant first (30_encoding.md R75). -/
def msbFirst (v : Nat) : Nat → List Bool
  | 0 => []
  | n + 1 => v.testBit n :: msbFirst v n

/-- The number a bit string spells, first bit most significant (30_encoding.md R75). -/
def ofMsbFirst (l : List Bool) : Nat := l.foldl (fun acc b => 2 * acc + b.toNat) 0

/-- `L = floor_log2(code_num + 1)` (30_encoding.md R76). -/
def egPrefixLength (codeNum : Nat) : Nat := (codeNum + 1).log2

/-- The length `2L + 1` of the unsigned Exp-Golomb code (30_encoding.md R76). -/
def ueLength (codeNum : Nat) : Nat := 2 * egPrefixLength codeNum + 1

/-- The unsigned Exp-Golomb code of `code_num`, as the field `u(2L + 1)` of `code_num + 1`
(30_encoding.md R76, 41_expgolomb.md R121). -/
def ueBits (codeNum : Nat) : List Bool := msbFirst (codeNum + 1) (ueLength codeNum)

/-- The map of signed values to `code_num` (30_encoding.md R77, 41_expgolomb.md R123). -/
def seCodeNum (v : Int) : Nat :=
  if 0 < v then 2 * v.natAbs - 1 else 2 * v.natAbs

/-- The signed Exp-Golomb code (30_encoding.md R77). -/
def seBits (v : Int) : List Bool := ueBits (seCodeNum v)

/-- The NAL header byte, `(nal_ref_idc << 5) | nal_unit_type` with a zero bit 7 (30_encoding.md R78). -/
def nalHeader (ref : BitVec 2) (nalType : BitVec 5) : Byte := 0#1 ++ (ref ++ nalType)

/-- The Annex B start code (30_encoding.md R79). -/
def startCode : List Byte := [0x00#8, 0x00#8, 0x00#8, 0x01#8]

/-- The NAL unit: optional start code, header byte, escaped RBSP (30_encoding.md R80). -/
def nalUnit (ref : BitVec 2) (nalType : BitVec 5) (sc : Bool) (esc : List Byte) : List Byte :=
  (if sc then startCode else []) ++ nalHeader ref nalType :: esc

/-- The 64-bit RESULT field for a count: the count itself where it fits, a free value where it does
not (30_encoding.md R73; log entry 11). -/
def countResult (n : Nat) : BitVec 64 :=
  if n < 2 ^ 64 then BitVec.ofNat 64 n else Config.wideResult n

/-- The bit depth a `CFG` operand names, if any (45_config.md R211). -/
def depthOf (d : BitVec 8) : Option BitDepth :=
  if d = 8#8 then some .eight else if d = 12#8 then some .twelve else none

/-- The chroma format a `CFG` operand names, if any (45_config.md R211). -/
def chromaOf (c : BitVec 8) : Option Chroma :=
  if c = 0#8 then some .mono400 else if c = 1#8 then some .yuv420 else none

/-- The value of the register `DEPTH` (10_state.md R15): bits in a sample. -/
def BitDepth.bits (d : BitDepth) : Nat :=
  match d with
  | .eight => 8
  | .twelve => 12

/-- The value of the register `CHROMA` (10_state.md R15). -/
def Chroma.code (c : Chroma) : Nat :=
  match c with
  | .mono400 => 0
  | .yuv420 => 1

/-- `BPS`, bytes per sample in frame memory (10_state.md R15). -/
def FrameSpec.bps (c : FrameSpec) : Nat :=
  match c.depth with
  | .eight => 1
  | .twelve => 2

/-- `ceil_div` (00_scope.md R5). -/
def ceilDiv (a b : Nat) : Nat := (a + b - 1) / b

/-- `MBW`, macroblocks per row (10_state.md R15). -/
def FrameSpec.mbw (c : FrameSpec) : Nat := ceilDiv c.width.toNat 16

/-- `MBH`, macroblock rows (10_state.md R15). -/
def FrameSpec.mbh (c : FrameSpec) : Nat := ceilDiv c.height.toNat 16

/-- `NMB`, macroblocks per picture (10_state.md R15). -/
def FrameSpec.nmb (c : FrameSpec) : Nat := c.mbw * c.mbh

/-- Width in samples of a plane: `W`, or `CW = W div 2` (10_state.md R15, 20_memory.md R43). -/
def FrameSpec.planeWidth (c : FrameSpec) (p : Plane) : Nat :=
  match p with
  | .y => c.width.toNat
  | .cb => c.width.toNat / 2
  | .cr => c.width.toNat / 2

/-- Height in samples of a plane: `H`, or `CH = H div 2` (10_state.md R15, 20_memory.md R43). -/
def FrameSpec.planeHeight (c : FrameSpec) (p : Plane) : Nat :=
  match p with
  | .y => c.height.toNat
  | .cb => c.height.toNat / 2
  | .cr => c.height.toNat / 2

/-- The length in bytes of a plane that matches the configuration (20_memory.md R44). -/
def FrameSpec.planeBytes (c : FrameSpec) (p : Plane) : Nat :=
  c.planeWidth p * c.planeHeight p * c.bps

/-- Whether the configuration has a plane: the chroma planes only with 4:2:0 (20_memory.md R43). -/
def FrameSpec.hasPlane (c : FrameSpec) (p : Plane) : Bool :=
  match p with
  | .y => true
  | .cb => c.chroma == .yuv420
  | .cr => c.chroma == .yuv420

/-- Byte address of sample `(x, y)` in its plane: row-major, tightly packed (20_memory.md R43). -/
def FrameSpec.sampleAddress (c : FrameSpec) (p : Plane) (x y : Nat) : Nat :=
  (y * c.planeWidth p + x) * c.bps

/-- Side of the square tile a macroblock takes from a plane (44_rasterizer.md R184). -/
def Plane.tileSide (p : Plane) : Nat :=
  match p with
  | .y => 16
  | .cb => 8
  | .cr => 8

/-- The 72 bits of the response word, `STATUS[71:64] RESULT[63:0]` (30_encoding.md R73). -/
def Response.word (r : Response) : BitVec 72 := r.status ++ r.result

end Sys2Proof.Machine
end

