-- ==== Sys2Proof/Machine/BitBuffer.lean ====
section
/-! DEFINITION. The bit buffer: appending bits, the alignment primitive and the bit-string view
(10_state.md R12, R13; 40_bitwriter.md R100, R101, R104). -/

namespace Sys2Proof.Machine

/-- A bit at position `7 - k` of a byte, the place of the `k`-th bit written into it (20_memory.md R41). -/
def bitInByte (b : Bool) (k : Nat) : Byte := BitVec.ofNat 8 (b.toNat <<< (7 - k))

/-- OR a mask into the last byte of a sequence. -/
def orIntoLast (mask : Byte) : List Byte → List Byte
  | [] => []
  | [x] => [x ||| mask]
  | x :: y :: rest => x :: orIntoLast mask (y :: rest)

/-- `append_bit(b)`, as 40_bitwriter.md R100 writes it. -/
def BitBuffer.appendBit (s : BitBuffer) (b : Bool) : BitBuffer :=
  if s.used = 0 then { buf := s.buf ++ [bitInByte b 0], used := 1 }
  else { buf := orIntoLast (bitInByte b s.used.val) s.buf, used := s.used + 1 }

/-- The bytes that result when bits are shifted into a partial byte `acc` holding `k` bits: "fixed-width
writes shift and OR into the partial byte, spilling full bytes as they complete" (10_state.md R12). -/
def spill (acc : Byte) (k : Nat) : List Bool → List Byte
  | [] => if k = 0 then [] else [acc]
  | b :: rest =>
    if k = 7 then (acc ||| bitInByte b k) :: spill 0#8 0 rest
    else spill (acc ||| bitInByte b k) (k + 1) rest

/-- Append a string of bits, in order. It is `append_bit` for one bit after another (40_bitwriter.md
R100, R101), taken many bits at a time, as R100 allows; Laws/BitBuffer.lean proves the two equal. -/
def BitBuffer.appendBits (s : BitBuffer) (bits : List Bool) : BitBuffer :=
  if s.used = 0 then
    { buf := s.buf ++ spill 0#8 0 bits, used := Fin.ofNat 8 bits.length }
  else
    { buf := s.buf.dropLast ++ spill (s.buf.getLast?.getD 0#8) s.used.val bits,
      used := Fin.ofNat 8 (s.used.val + bits.length) }

/-- `write_bits(value, n)` (40_bitwriter.md R101). -/
def BitBuffer.writeBits (s : BitBuffer) (value n : Nat) : BitBuffer := s.appendBits (msbFirst value n)

/-- The zero bits `align_zero()` appends from a buffer with `used` bits in its last byte
(40_bitwriter.md R104). -/
def alignmentZeros (used : Nat) : List Bool := List.replicate ((8 - used % 8) % 8) false

/-- `align_zero()` (40_bitwriter.md R104). -/
def BitBuffer.alignZero (s : BitBuffer) : BitBuffer := s.appendBits (alignmentZeros s.used.val)

/-- `BITPOS`, the number of bits written (10_state.md R13). -/
def BitBuffer.bitPos (s : BitBuffer) : Nat :=
  if s.used = 0 then 8 * s.buf.length else 8 * (s.buf.length - 1) + s.used.val

/-- The bits of a byte, bit 7 first (10_state.md R13). -/
def byteBits (b : Byte) : List Bool := msbFirst b.toNat 8

/-- `BITS`, the buffer as a string of bits (10_state.md R13). -/
def BitBuffer.bits (s : BitBuffer) : List Bool := (s.buf.flatMap byteBits).take s.bitPos

/-- The invariant of 10_state.md R12: a partial byte exists when `USED ≠ 0`, and its unwritten low
bits are 0. -/
def BitBuffer.wf (s : BitBuffer) : Bool :=
  s.used == 0 || (!s.buf.isEmpty && (s.buf.getLast?.getD 0#8).toNat % 2 ^ (8 - s.used.val) == 0)

end Sys2Proof.Machine
end

