-- ==== Sys2Proof/Machine/Flags.lean ====
section
/-! DEFINITION. The condition flag, the capacity conditions and the conditions of the sequence table
(10_state.md R13; 20_memory.md R53; 40_bitwriter.md R107; 60_exceptions.md R257). -/

namespace Sys2Proof.Machine

/-- `ALIGNED` (10_state.md R13). -/
def BitBuffer.aligned (b : BitBuffer) : Bool := b.used == 0

/-- `CFG_VALID` (10_state.md R15). -/
def State.cfgValid (s : State) : Bool := s.cfg.isSome

/-- `FRAME_VALID` (10_state.md R16). -/
def State.frameValid (s : State) : Bool := s.frame.isSome

/-- Whether `BUF` can take `m` more bits: `ceil_div(BITPOS + m, 8) ≤ BUF_CAP` (40_bitwriter.md R107). -/
def State.bitsFit (s : State) (m : Nat) : Bool :=
  capacityHolds s.config.bufCap (ceilDiv (s.rbsp.bitPos + m) 8)

/-- Whether the trailing bits fit: only an aligned buffer grows, by one byte (42_rbsp.md R141). -/
def State.trailFits (s : State) : Bool :=
  !s.rbsp.aligned || capacityHolds s.config.bufCap (s.rbsp.buf.length + 1)

/-- Whether `ESC` can hold `n` bytes (20_memory.md R53, 42_rbsp.md R143). -/
def State.escapedFits (s : State) (n : Nat) : Bool := capacityHolds s.config.escCap n

end Sys2Proof.Machine
end

