-- ==== Sys2Proof/Machine/Ops.lean ====
section
/-! DEFINITION. The named operations every command shares: answering, taking a fault, the faulted
state, return from it by reset, and frame memory (60_exceptions.md R254 to R256;
70_reset_and_hazards.md R280; 20_memory.md R43 to R46). -/

namespace Sys2Proof.Machine

/-- The outcome of one command or one step. -/
abbrev Result := Host.Outcome State Fault Refusal

/-- The 8-bit code of a cause (60_exceptions.md R250). -/
def Cause.code (c : Cause) : BitVec 8 :=
  match c with
  | .illegalCommand => 1#8
  | .configurationError => 2#8
  | .dimensionMismatch => 3#8
  | .bitDepthOutOfRange => 4#8
  | .sinkError => 5#8
  | .invariantViolation => 6#8
  | .sequenceError => 7#8
  | .capacityExceeded => 8#8

/-! ## Answering and faulting -/

/-- The state that has answered `(status, result)`: the word on the response port and `RES`
(30_encoding.md R73). -/
def State.answer (s : State) (status : BitVec 8) (result : BitVec 64) : State :=
  { s with res := result, response := some { status := status, result := result } }

/-- `respond (0, result)`: the command was performed (30_encoding.md R73). -/
def respond (result : BitVec 64) (s : State) : Result := .next (s.answer 0#8 result)

/-- The state after fault entry (60_exceptions.md R254). `BUF`, `USED`, `ESC` and `PHASE` are
unspecified from here on; they are left as they were, as R254 allows (DESIGN CHOICE, log entry 8). -/
def State.raised (s : State) (c : Cause) : State :=
  { s.answer c.code 0#64 with fault := true, cause := c.code }

/-- `raise <Cause>` (60_exceptions.md R254), the one operation by which any command takes a fault. -/
def raise (c : Cause) (s : State) : Result := .next (s.raised c)

/-- The answer of the faulted state to any word: `(CAUSE, 0)`, and nothing else (60_exceptions.md R255). -/
def refuseFaulted (s : State) : Result := .next (s.answer s.cause 0#64)

/-- A command: refused while `FAULT = 1`, before anything else is looked at (60_exceptions.md R252
step 1), else its own body. -/
def command (s : State) (body : Result) : Result := if s.fault then refuseFaulted s else body

/-- A word that is no command raises `IllegalCommand` (30_encoding.md R74, 60_exceptions.md R252). -/
def illegalWord (s : State) : Result := command s (raise .illegalCommand s)

/-- The reset event, the only way out of the faulted state (70_reset_and_hazards.md R280,
60_exceptions.md R256): everything as in `State.reset` but `OUT`, which it does not touch, and the
parameters and inputs, which are not the block's (log entry 10). -/
def State.afterReset (s : State) : State :=
  { State.reset with config := s.config, out := s.out, sinkOk := s.sinkOk, input := s.input }

/-! ## Frame memory -/

/-- What a loaded byte that is not listed reads as (log entry 5). -/
def Memory.unlisted : Byte := 0x00#8

/-- The byte a list of cells gives an address. -/
def lookupCell (cells : List Host.Cell) (a : Nat) : Byte :=
  match cells with
  | [] => Memory.unlisted
  | (k, b) :: rest => if k = a then b else if a < k then Memory.unlisted else lookupCell rest a

/-- Read one byte of a plane; `none` where the plane holds no byte (20_memory.md R45). -/
def Memory.read (m : Memory) (a : Nat) : Option Byte :=
  if a < m.len then some (lookupCell m.cells a) else none

/-- The cells of a sequence of bytes that starts at address `a`. -/
def cellsFrom (a : Nat) (bytes : List Byte) : List Host.Cell :=
  match bytes with
  | [] => []
  | b :: rest => if b = Memory.unlisted then cellsFrom (a + 1) rest else (a, b) :: cellsFrom (a + 1) rest

/-- The plane that holds exactly a sequence of bytes, from address 0 (10_state.md R21). -/
def Memory.ofBytes (bytes : List Byte) : Memory := { len := bytes.length, cells := cellsFrom 0 bytes }

/-- Cells rise strictly from `a` on, stay below `len`, and none holds the byte an unlisted address reads as. -/
def cellsWf (a len : Nat) (cells : List Host.Cell) : Bool :=
  match cells with
  | [] => true
  | (k, b) :: rest => decide (a ≤ k) && decide (k < len) && b != Memory.unlisted && cellsWf (k + 1) len rest

/-- The canonical form of a plane: equal contents and lengths are equal data. -/
def Memory.wf (m : Memory) : Bool := cellsWf 0 m.len m.cells

/-- A plane of frame memory (20_memory.md R40). -/
def State.plane (s : State) (p : Plane) : Memory :=
  match p with
  | .y => s.pixY
  | .cb => s.pixCb
  | .cr => s.pixCr

/-- The host loads a plane whole: its bytes and its length (20_memory.md R54, log entry 6). -/
def State.loadPlane (s : State) (p : Plane) (bytes : List Byte) : State :=
  match p with
  | .y => { s with pixY := Memory.ofBytes bytes }
  | .cb => { s with pixCb := Memory.ofBytes bytes }
  | .cr => { s with pixCr := Memory.ofBytes bytes }

/-- `MemRead(P, addr, n)`, `n` 1 or 2, little-endian (00_scope.md R6, 20_memory.md R42, R45). -/
def Memory.readSample (m : Memory) (addr n : Nat) : Option Nat :=
  match m.read addr with
  | none => none
  | some lo =>
    if n = 1 then some lo.toNat
    else
      match m.read (addr + 1) with
      | none => none
      | some hi => some (lo.toNat + 256 * hi.toNat)

/-! ## The command port -/

/-- Take the next item the host presents, if any (10_state.md R11; log entry 1). -/
def State.takeInput (s : State) : Option (HostEvent × State) :=
  match s.input with
  | [] => none
  | e :: rest => some (e, { s with input := rest })

/-- Present one word on the command port before everything else. -/
def State.present (s : State) (w : CommandWord) : State := { s with input := .command w :: s.input }

end Sys2Proof.Machine
end

