-- ==== Sys2Proof/Machine/BitWriter.lean ====
section
/-! DEFINITION. The bit writer commands U, ALIGN0, BITPOS, ALIGNED (40_bitwriter.md). -/

namespace Sys2Proof.Machine

/-- `U n, value` (40_bitwriter.md R102). -/
def execU (n : BitVec 8) (value : BitVec 64) (s : State) : Result :=
  command s <|
    if 64 < n.toNat then raise .illegalCommand s
    else if s.phase ≠ .rbspOpen then raise .sequenceError s
    else if 2 ^ n.toNat ≤ value.toNat then raise .invariantViolation s
    else if ¬ s.bitsFit n.toNat then raise .capacityExceeded s
    else respond 0#64 { s with rbsp := s.rbsp.writeBits value.toNat n.toNat }

/-- `ALIGN0` (40_bitwriter.md R104); no capacity check, since no byte is added. -/
def execAlign0 (s : State) : Result :=
  command s <|
    if s.phase ≠ .rbspOpen then raise .sequenceError s
    else respond 0#64 { s with rbsp := s.rbsp.alignZero }

/-- `BITPOS` (40_bitwriter.md R105), in every phase. -/
def execBitpos (s : State) : Result :=
  command s <| respond (countResult s.rbsp.bitPos) s

/-- `ALIGNED` (40_bitwriter.md R106), in every phase. -/
def execAligned (s : State) : Result :=
  command s <| respond (if s.rbsp.aligned then 1#64 else 0#64) s

end Sys2Proof.Machine
end

