-- ==== Sys2Proof/Machine/Configuration.lean ====
section
/-! DEFINITION. The configuration command CFG (45_config.md). -/

namespace Sys2Proof.Machine

/-- `CFG width, height, depth, chroma` (45_config.md R211 to R213): the first failing line of R211's
pseudocode decides. -/
def execCfg (width height : BitVec 16) (depth chroma : BitVec 8) (s : State) : Result :=
  command s <|
    if s.cfgValid then raise .sequenceError s
    else if width = 0#16 ∨ height = 0#16 then raise .configurationError s
    else
      match depthOf depth, chromaOf chroma with
      | some d, some c =>
        if d = .twelve ∧ c = .yuv420 then raise .configurationError s
        else if c = .yuv420 ∧ (width.toNat % 2 = 1 ∨ height.toNat % 2 = 1) then
          raise .configurationError s
        else
          respond 0#64
            { s with cfg := some { width := width, height := height, depth := d, chroma := c } }
      | _, _ => raise .configurationError s

end Sys2Proof.Machine
end

