-- ==== Sys2Proof/Machine/ExpGolomb.lean ====
section
/-! DEFINITION. The Exp-Golomb commands UE and SE (41_expgolomb.md). -/

namespace Sys2Proof.Machine

/-- The common body of `UE` and `SE` for a `code_num` (41_expgolomb.md R121, R123): phase, the codes of
at most 63 bits (R120), capacity, and one fixed-width write. -/
def appendCode (codeNum : Nat) (s : State) : Result :=
  if s.phase ≠ .rbspOpen then raise .sequenceError s
  else if 2 ^ 32 - 2 < codeNum then raise .invariantViolation s
  else if ¬ s.bitsFit (ueLength codeNum) then raise .capacityExceeded s
  else respond 0#64 { s with rbsp := s.rbsp.writeBits (codeNum + 1) (ueLength codeNum) }

/-- `UE v` (41_expgolomb.md R121): `code_num = v`, refused at `2^32 - 1` only. -/
def execUe (v : BitVec 32) (s : State) : Result := command s <| appendCode v.toNat s

/-- `SE v` (41_expgolomb.md R123): the operand read as two's complement and mapped, refused at `-2^31`
only, whose `code_num` is `2^32`. -/
def execSe (v : BitVec 32) (s : State) : Result := command s <| appendCode (seCodeNum v.toInt) s

end Sys2Proof.Machine
end

