-- ==== Sys2Proof/Machine/Nal.lean ====
section
/-! DEFINITION. The NAL framer command NAL (43_nal.md). -/

namespace Sys2Proof.Machine

/-- `NAL ref, type, sc` (43_nal.md R161): encoding, phase, the IDR rule (R165), then the sink's answer
(R164); an accepted unit reaches `OUT` whole (R163) and the buffers are emptied. -/
def execNal (ref : BitVec 2) (nalType : BitVec 5) (sc : Bool) (s : State) : Result :=
  command s <|
    if ¬ nalTypeLegal nalType then raise .illegalCommand s
    else if s.phase ≠ .escaped then raise .sequenceError s
    else if nalType = 5#5 ∧ ref = 0#2 then raise .invariantViolation s
    else if ¬ s.sinkOk then raise .sinkError s
    else
      respond (countResult (nalUnit ref nalType sc s.esc).length)
        { s with
          out := s.out ++ nalUnit ref nalType sc s.esc
          rbsp := BitBuffer.empty
          esc := []
          phase := .rbspOpen }

end Sys2Proof.Machine
end

