-- ==== Sys2Proof/Machine/Rasterizer.lean ====
section
/-! DEFINITION. The macroblock rasterizer commands FRAME, MBPCM and PICPCM (44_rasterizer.md). -/

namespace Sys2Proof.Machine

/-! ## Declaring a frame -/

/-- Whether a plane the configuration uses holds exactly the bytes of a tightly packed plane
(20_memory.md R44, 44_rasterizer.md R181). -/
def State.planeMatches (s : State) (c : FrameSpec) (p : Plane) : Bool :=
  !c.hasPlane p || (s.plane p).len == c.planeBytes p

/-- `FRAME fw, fh` (44_rasterizer.md R181), in every phase. -/
def execFrame (fw fh : BitVec 16) (s : State) : Result :=
  command s <|
    match s.cfg with
    | none => raise .sequenceError s
    | some c =>
      if fw ≠ c.width ∨ fh ≠ c.height then raise .dimensionMismatch s
      else if ¬ s.planeMatches c .y then raise .dimensionMismatch s
      else if ¬ s.planeMatches c .cb ∨ ¬ s.planeMatches c .cr then raise .dimensionMismatch s
      else respond 0#64 { s with frame := some { fw := fw, fh := fh } }

/-! ## Reading samples -/

/-- The positions of a macroblock's samples in one plane, `i` fastest (44_rasterizer.md R183, R184). -/
def tileSites (p : Plane) (mbX mbY : Nat) : List (Plane × Nat × Nat) :=
  (List.range p.tileSide).flatMap fun j =>
    (List.range p.tileSide).map fun i => (p, p.tileSide * mbX + i, p.tileSide * mbY + j)

/-- The positions of a macroblock's samples in stream order: luma, then Cb and Cr with 4:2:0
(44_rasterizer.md R183, 30_encoding.md R83). -/
def mbSites (c : FrameSpec) (mbX mbY : Nat) : List (Plane × Nat × Nat) :=
  tileSites .y mbX mbY ++
    (if c.chroma = .yuv420 then tileSites .cb mbX mbY ++ tileSites .cr mbX mbY else [])

/-- `fetch` (44_rasterizer.md R184): zero outside the picture, without a read; else the sample from
frame memory, `none` where the plane does not hold it (20_memory.md R45). -/
def State.fetch (s : State) (c : FrameSpec) (site : Plane × Nat × Nat) : Option Nat :=
  let (p, x, y) := site
  if c.planeWidth p ≤ x ∨ c.planeHeight p ≤ y then some 0
  else (s.plane p).readSample (c.sampleAddress p x y) c.bps

/-- All results of a partial function over a list, or `none` if one is missing. -/
def collect {α β : Type} (f : α → Option β) : List α → Option (List β)
  | [] => some []
  | a :: rest =>
    match f a, collect f rest with
    | some b, some bs => some (b :: bs)
    | _, _ => none

/-- The samples of one macroblock in stream order. -/
def State.mbSamples (s : State) (c : FrameSpec) (mb : Nat × Nat) : Option (List Nat) :=
  collect (s.fetch c) (mbSites c mb.1 mb.2)

/-- Whether every sample is below `2^DEPTH` (44_rasterizer.md R185); padding samples are 0 and pass. -/
def samplesInRange (d : BitDepth) (l : List Nat) : Bool := l.all fun v => decide (v < 2 ^ d.bits)

/-! ## Writing macroblocks -/

/-- `mb_type` of I_PCM (00_scope.md R4, 30_encoding.md R83). -/
def mbTypeIPcm : Nat := 25

/-- `mb_pcm` of 44_rasterizer.md R183 on samples already read: `mb_type`, alignment zeros, and the
samples as `u(DEPTH)`. -/
def BitBuffer.mbPcm (b : BitBuffer) (d : BitDepth) (samples : List Nat) : BitBuffer :=
  (b.writeBits (mbTypeIPcm + 1) (ueLength mbTypeIPcm)).alignZero.appendBits
    (samples.flatMap fun v => msbFirst v d.bits)

/-- `mb_bits(used)` of 44_rasterizer.md R183. -/
def FrameSpec.mbBits (c : FrameSpec) (used : Nat) : Nat :=
  9 + (8 - (used + 9) % 8) % 8 + (256 + 128 * c.chroma.code) * c.depth.bits

/-- The macroblocks of the picture, `mb_x` fastest (44_rasterizer.md R187). -/
def FrameSpec.mbOrder (c : FrameSpec) : List (Nat × Nat) :=
  (List.range c.mbh).flatMap fun mbY => (List.range c.mbw).map fun mbX => (mbX, mbY)

/-- The bits `PICPCM` counts against the capacity (44_rasterizer.md R187). -/
def FrameSpec.picBits (c : FrameSpec) (used : Nat) : Nat :=
  c.mbBits used + (c.nmb - 1) * c.mbBits 0

/-- The sequence check `MBPCM` and `PICPCM` share (44_rasterizer.md R183, R187; 60_exceptions.md R257):
configured, a frame declared, phase `OPEN`. -/
def withFrame (s : State) (body : FrameSpec → Result) : Result :=
  match s.cfg with
  | none => raise .sequenceError s
  | some c =>
    if s.frameValid = false ∨ s.phase ≠ .rbspOpen then raise .sequenceError s else body c

/-- Write macroblocks whose samples have been read, after the range check and the capacity check of
`m` bits, in that order (44_rasterizer.md R185). A read outside a plane is the model's own fault
(log entry 5). -/
def writeMacroblocks (s : State) (c : FrameSpec) (m : Nat) (mbs : Option (List (List Nat))) : Result :=
  match mbs with
  | none => .fault .outOfPlaneRead
  | some l =>
    if ¬ l.all (samplesInRange c.depth) then raise .bitDepthOutOfRange s
    else if ¬ s.bitsFit m then raise .capacityExceeded s
    else respond 0#64 { s with rbsp := l.foldl (fun b samples => b.mbPcm c.depth samples) s.rbsp }

/-- `MBPCM mb_x, mb_y` (44_rasterizer.md R183). -/
def execMbpcm (mbX mbY : BitVec 16) (s : State) : Result :=
  command s <| withFrame s fun c =>
    if c.mbw ≤ mbX.toNat ∨ c.mbh ≤ mbY.toNat then raise .invariantViolation s
    else
      writeMacroblocks s c (c.mbBits s.rbsp.used.val)
        (collect (s.mbSamples c) [(mbX.toNat, mbY.toNat)])

/-- `PICPCM` (44_rasterizer.md R187). -/
def execPicpcm (s : State) : Result :=
  command s <| withFrame s fun c =>
    writeMacroblocks s c (c.picBits s.rbsp.used.val) (collect (s.mbSamples c) c.mbOrder)

end Sys2Proof.Machine
end

