-- ==== Sys2Proof/Machine/Escape.lean ====
section
/-! DEFINITION. Emulation prevention and the inverses the rules determine (42_rbsp.md R143, R145;
30_encoding.md R81, R84; 41_expgolomb.md R122, R124). -/

namespace Sys2Proof.Machine

/-- `escape(S)` of 42_rbsp.md R143 from a zero count `z`, each byte of the result with a mark that says
whether it is an inserted emulation prevention byte. -/
def escapeMarked (z : Nat) : List Byte → List (Byte × Bool)
  | [] => []
  | b :: rest =>
    if z = 2 ∧ b.toNat ≤ 3 then
      (0x03#8, true) :: (b, false) :: escapeMarked (if b = 0#8 then 1 else 0) rest
    else
      (b, false) :: escapeMarked (if b = 0#8 then z + 1 else 0) rest

/-- `escape(S)` (42_rbsp.md R143): the count starts at 0. -/
def escape (s : List Byte) : List Byte := (escapeMarked 0 s).map Prod.fst

/-- `unescape` (42_rbsp.md R145 b): delete every `0x03` that follows two zero bytes, and restart the
count after each deletion. -/
def unescapeFrom (z : Nat) : List Byte → List Byte
  | [] => []
  | b :: rest =>
    if 2 ≤ z ∧ b = 0x03#8 then unescapeFrom 0 rest
    else b :: unescapeFrom (if b = 0#8 then z + 1 else 0) rest

/-- `unescape` (42_rbsp.md R145 b): the count starts at 0. -/
def unescape (s : List Byte) : List Byte := unescapeFrom 0 s

/-- Read one `ue` code from the front of a bit string whose first `l` zeros have been read: its
`code_num` and the bits after it (30_encoding.md R84, 41_expgolomb.md R122 c). -/
def readUeAfter (l : Nat) : List Bool → Option (Nat × List Bool)
  | [] => none
  | false :: rest => readUeAfter (l + 1) rest
  | true :: rest =>
    if rest.length < l then none
    else some (2 ^ l - 1 + ofMsbFirst (rest.take l), rest.drop l)

/-- Read one `ue` code from the front of a bit string (30_encoding.md R84). -/
def readUe (bits : List Bool) : Option (Nat × List Bool) := readUeAfter 0 bits

/-- The inverse of the signed map (30_encoding.md R77, 41_expgolomb.md R124 a). -/
def seValue (codeNum : Nat) : Int :=
  if codeNum % 2 = 1 then ((codeNum + 1) / 2 : Nat) else -((codeNum / 2 : Nat) : Int)

end Sys2Proof.Machine
end

