-- ==== Sys2Proof/Machine/Rbsp.lean ====
section
/-! DEFINITION. The RBSP engine commands TRAIL and EPB (42_rbsp.md). -/

namespace Sys2Proof.Machine

/-- `TRAIL` (42_rbsp.md R141). -/
def execTrail (s : State) : Result :=
  command s <|
    if s.phase ≠ .rbspOpen then raise .sequenceError s
    else if ¬ s.trailFits then raise .capacityExceeded s
    else respond 0#64 { s with rbsp := (s.rbsp.appendBits [true]).alignZero, phase := .trailed }

/-- `EPB` (42_rbsp.md R143): `BUF` and `USED` stay; the answer is the number of bytes inserted. -/
def execEpb (s : State) : Result :=
  command s <|
    if s.phase ≠ .trailed then raise .sequenceError s
    else if ¬ s.escapedFits (escape s.rbsp.buf).length then raise .capacityExceeded s
    else
      respond (countResult ((escape s.rbsp.buf).length - s.rbsp.buf.length))
        { s with esc := escape s.rbsp.buf, phase := .escaped }

end Sys2Proof.Machine
end

