-- ==== Sys2Proof/Machine/Dispatch.lean ====
section
/-! DEFINITION. The meaning of each command, one arm per constructor. -/

namespace Sys2Proof.Machine

def exec (i : Instr) (s : State) : Host.Outcome State Fault Refusal :=
  match i with
  | .cfg width height depth chroma => Sys2Proof.Machine.execCfg width height depth chroma s
  | .frame fw fh => Sys2Proof.Machine.execFrame fw fh s
  | .u n value => Sys2Proof.Machine.execU n value s
  | .ue v => Sys2Proof.Machine.execUe v s
  | .se v => Sys2Proof.Machine.execSe v s
  | .align0 => Sys2Proof.Machine.execAlign0 s
  | .bitpos => Sys2Proof.Machine.execBitpos s
  | .aligned => Sys2Proof.Machine.execAligned s
  | .trail => Sys2Proof.Machine.execTrail s
  | .epb => Sys2Proof.Machine.execEpb s
  | .nal ref nalType sc => Sys2Proof.Machine.execNal ref nalType sc s
  | .mbpcm mbX mbY => Sys2Proof.Machine.execMbpcm mbX mbY s
  | .picpcm => Sys2Proof.Machine.execPicpcm s

end Sys2Proof.Machine
end

