-- ==== Sys2Proof/Machine/Step.lean ====
section
/-! DEFINITION. One step: the block takes the next item the host presents and performs it wholly
(10_state.md R11, 20_memory.md R49, 70_reset_and_hazards.md R286). -/

namespace Sys2Proof.Machine

/-- One step. With nothing presented the block is idle and the state stays (60_exceptions.md R259). A
command word is decoded and executed, an illegal one raises `IllegalCommand`; the host's load, the
sink's answer and the reset event act between commands (20_memory.md R54). -/
def step (s : State) : Host.Outcome State Fault Refusal :=
  match s.takeInput with
  | none => .next s
  | some (.command w, t) =>
    match decode w with
    | .ok i => exec i t
    | .error _ => illegalWord t
  | some (.load p bytes, t) => .next (t.loadPlane p bytes)
  | some (.sinkAnswer ok, t) => .next { t with sinkOk := ok }
  | some (.reset, t) => .next t.afterReset

/-- `s` with one command word presented first on the command port. -/
def State.withFetchWord (s : State) (nbits w : Nat) : State := s.present (tableWord nbits w)

end Sys2Proof.Machine
end

