-- ==== Sys2Proof/Safety.lean ====
section
/-! DEFINITION. The invariant of the block and what counts as a good run, in the terms claims use. -/

namespace Sys2Proof.Machine

/-- The configurations `CFG` accepts (45_config.md R211 to R213, 10_state.md R15). -/
structure FrameSpec.Legal (c : FrameSpec) : Prop where
  width : c.width ≠ 0#16
  height : c.height ≠ 0#16
  depthChroma : ¬ (c.depth = .twelve ∧ c.chroma = .yuv420)
  even : c.chroma = .yuv420 → c.width.toNat % 2 = 0 ∧ c.height.toNat % 2 = 0

/-- What holds of the buffers while no fault is latched (10_state.md R12, R14, R17; 42_rbsp.md R142;
20_memory.md R53). -/
structure State.BuffersOk (s : State) : Prop where
  /-- A partial byte exists when `USED ≠ 0` and its unwritten bits are 0 (R12). -/
  rbsp : s.rbsp.wf = true
  /-- A closed RBSP is aligned and ends in a byte that is not `0x00` (R142). -/
  closed : s.phase ≠ .rbspOpen → s.rbsp.used = 0 ∧ ∃ b, s.rbsp.buf.getLast? = some b ∧ b ≠ 0x00#8
  /-- `ESC` is the escaped `BUF` in phase `ESCAPED` and empty else (R17). -/
  esc : s.esc = if s.phase = .escaped then escape s.rbsp.buf else []
  /-- The capacities hold (R53). -/
  bufFits : capacityHolds s.config.bufCap s.rbsp.buf.length = true
  escFits : capacityHolds s.config.escCap s.esc.length = true

/-- The invariant of the block. The part about the buffers is asked only while `FAULT = 0`: after a
fault the spec leaves them unspecified (60_exceptions.md R254). -/
structure State.Inv (s : State) : Prop where
  /-- Frame memory is in canonical form. -/
  planes : ∀ p, (s.plane p).wf = true
  /-- The configuration is one `CFG` accepts. -/
  cfg : ∀ c, s.cfg = some c → c.Legal
  /-- A declared frame has the configured size (10_state.md R16). -/
  frame : ∀ f, s.frame = some f → ∃ c, s.cfg = some c ∧ f.fw = c.width ∧ f.fh = c.height
  /-- `CAUSE` is 0 exactly while `FAULT = 0`, and one of the eight codes else (R18, R250). -/
  cause : if s.fault then 1 ≤ s.cause.toNat ∧ s.cause.toNat ≤ 8 else s.cause = 0#8
  buffers : s.fault = false → s.BuffersOk

/-- A good run ends with `FAULT = 0` (10_state.md R11, 92_eei_decisions.md D19). -/
def State.goodEnd (s : State) : Bool := !s.fault

/-- The end of a delivered stream: no fault and no RBSP left unfinished (92_eei_decisions.md D19). -/
def State.streamEnd (s : State) : Bool :=
  s.goodEnd && s.phase == .rbspOpen && s.rbsp.buf.isEmpty

end Sys2Proof.Machine
end

