-- ==== Sys2Proof/Certificates/Slice0/Obligations.lean ====
section
/-! DEFINITION. What is claimed of the block: the statements for the provers, and the words they use. -/

namespace Sys2Proof.Claims

open Sys2Proof.Machine

/-! ## Words of the statements -/

/-- `n` bytes fit a capacity that may be unbounded (20_memory.md R53). -/
def roomFor (cap : Option Nat) (n : Nat) : Prop := ∀ c, cap = some c → n ≤ c

/-- The field `u(n)` of a number: its bits `n - 1` down to 0 (30_encoding.md R75). -/
def field (v n : Nat) : List Bool := (List.range n).reverse.map v.testBit

/-- `n` bits of a bit string from position `at` on. -/
def bitsAt (l : List Bool) (start n : Nat) : List Bool := (l.drop start).take n

/-- The command appends `bits` to `BUF` and answers (0, 0). Everything else is as before: the equation
is the whole frame. The new buffer keeps the invariant of 10_state.md R12, so that its bits determine
its bytes and `USED`. -/
def Appends (i : Instr) (s : State) (bits : List Bool) : Prop :=
  ∃ b : BitBuffer,
    exec i s = .next { s with rbsp := b, res := 0#64, response := some ⟨0#8, 0#64⟩ } ∧
    b.wf = true ∧ b.bits = s.rbsp.bits ++ bits

/-- The command takes the fault with this code and delivers nothing. -/
def Faults (i : Instr) (s : State) (code : BitVec 8) : Prop :=
  ∃ t, exec i s = .next t ∧ t.fault = true ∧ t.cause = code ∧ t.res = 0#64 ∧
    t.response = some ⟨code, 0#64⟩ ∧ t.out = s.out

/-- A byte of a plane, 0 where there is none. -/
def byteAt (m : Memory) (a : Nat) : Nat := ((m.read a).getD 0#8).toNat

/-- The sample at `(x, y)` of a plane of frame memory: one byte, or two bytes little-endian, at the
address of 20_memory.md R43. -/
def pixel (s : State) (c : FrameSpec) (p : Plane) (x y : Nat) : Nat :=
  match c.depth with
  | .eight => byteAt (s.plane p) (y * c.planeWidth p + x)
  | .twelve =>
    byteAt (s.plane p) ((y * c.planeWidth p + x) * 2) +
      256 * byteAt (s.plane p) ((y * c.planeWidth p + x) * 2 + 1)

/-- The sample a macroblock shows at picture position `(x, y)`: the pixel, or 0 outside the picture
(44_rasterizer.md R184). -/
def shown (s : State) (c : FrameSpec) (p : Plane) (x y : Nat) : Nat :=
  if x < c.planeWidth p ∧ y < c.planeHeight p then pixel s c p x y else 0

/-- Frame memory still holds at least the bytes of the configured planes (70_reset_and_hazards.md R285). -/
def PlanesHold (s : State) (c : FrameSpec) : Prop :=
  ∀ p, c.hasPlane p = true → c.planeBytes p ≤ (s.plane p).len

/-- Frame memory still holds the planes of the configuration, if there is one. -/
def ConfiguredPlanesHold (s : State) : Prop := ∀ c, s.cfg = some c → PlanesHold s c

/-- The two commands that read samples (20_memory.md R40). -/
def ReadsSamples (i : Instr) : Prop := (∃ x y, i = .mbpcm x y) ∨ i = .picpcm

/-- Every in-picture sample of macroblock `(mbX, mbY)` is below `2^DEPTH` (44_rasterizer.md R185). -/
def MacroblockInRange (s : State) (c : FrameSpec) (mbX mbY : Nat) : Prop :=
  ∀ p x y, c.hasPlane p = true → x < c.planeWidth p → y < c.planeHeight p →
    x / p.tileSide = mbX → y / p.tileSide = mbY → pixel s c p x y < 2 ^ c.depth.bits

/-- Every in-picture sample of the frame is below `2^DEPTH`. -/
def PictureInRange (s : State) (c : FrameSpec) : Prop :=
  ∀ p x y, c.hasPlane p = true → x < c.planeWidth p → y < c.planeHeight p →
    pixel s c p x y < 2 ^ c.depth.bits

/-- The samples of one plane in one macroblock, raster order, each as `u(DEPTH)` (30_encoding.md R83). -/
def tileBits (s : State) (c : FrameSpec) (p : Plane) (mbX mbY : Nat) : List Bool :=
  (List.range p.tileSide).flatMap fun j => (List.range p.tileSide).flatMap fun i =>
    field (shown s c p (p.tileSide * mbX + i) (p.tileSide * mbY + j)) c.depth.bits

/-- The samples of one macroblock: luma, then Cb and Cr with 4:2:0 (30_encoding.md R83). -/
def macroblockSampleBits (s : State) (c : FrameSpec) (mbX mbY : Nat) : List Bool :=
  tileBits s c .y mbX mbY ++
    (if c.chroma = .yuv420 then tileBits s c .cb mbX mbY ++ tileBits s c .cr mbX mbY else [])

/-- The host presents the word `w` next. -/
def Presents (s : State) (w : CommandWord) : Prop := ∃ rest, s.input = .command w :: rest

/-- The next item the host presents is the reset event. -/
def PresentsReset (s : State) : Prop := ∃ rest, s.input = .reset :: rest

/-- 30_encoding.md R74 (a) to (d), on the fields of the word: a reserved `OP`; a reserved bit that is 1
in the format of the opcode (R71); `n > 64`; `ARG[7] = 1` or a type outside {1, 5, 7, 8} in `NAL`. -/
def IllegalWord (w : CommandWord) : Prop :=
  let op := (opField w).toNat
  let arg := (argField w).toNat
  let val := (valField w).toNat
  op ∉ [0x01, 0x02, 0x10, 0x11, 0x12, 0x13, 0x14, 0x15, 0x20, 0x21, 0x30, 0x40, 0x41] ∨
  (op ∈ [0x13, 0x14, 0x15, 0x20, 0x21, 0x41] ∧ (arg ≠ 0 ∨ val ≠ 0)) ∨
  (op ∈ [0x02, 0x11, 0x12, 0x40] ∧ (arg ≠ 0 ∨ 2 ^ 32 ≤ val)) ∨
  (op = 0x01 ∧ (arg ≠ 0 ∨ 2 ^ 48 ≤ val)) ∨
  (op = 0x10 ∧ 64 < arg) ∨
  (op = 0x30 ∧ (2 ≤ val ∨ 128 ≤ arg ∨ arg % 32 ∉ [1, 5, 7, 8]))

/-- The sequence table of 60_exceptions.md R257: the command passes step 3 of R252. -/
def SequenceAccepts (i : Instr) (s : State) : Prop :=
  match i with
  | .cfg _ _ _ _ => s.cfgValid = false
  | .frame _ _ => s.cfgValid = true
  | .u _ _ => s.phase = .rbspOpen
  | .ue _ => s.phase = .rbspOpen
  | .se _ => s.phase = .rbspOpen
  | .align0 => s.phase = .rbspOpen
  | .mbpcm _ _ => s.cfgValid = true ∧ s.frameValid = true ∧ s.phase = .rbspOpen
  | .picpcm => s.cfgValid = true ∧ s.frameValid = true ∧ s.phase = .rbspOpen
  | .trail => s.phase = .rbspOpen
  | .epb => s.phase = .trailed
  | .nal _ _ _ => s.phase = .escaped
  | .bitpos => True
  | .aligned => True

/-- The checks of a command in the order of 60_exceptions.md R252, each with the code of the cause it
raises when it fails (R250): encoding, sequence, own preconditions, sample range, capacity, sink. -/
def checks (i : Instr) (s : State) : List (Prop × BitVec 8) :=
  (i.wellFormed = true, 1#8) :: (SequenceAccepts i s, 7#8) ::
  match i with
  | .cfg w h d c =>
    [(w ≠ 0#16 ∧ h ≠ 0#16, 2#8), (d = 8#8 ∨ d = 12#8, 2#8), (c = 0#8 ∨ c = 1#8, 2#8),
      (¬ (d = 12#8 ∧ c = 1#8), 2#8), (c = 1#8 → w.toNat % 2 = 0 ∧ h.toNat % 2 = 0, 2#8)]
  | .frame fw fh =>
    [(∀ c, s.cfg = some c → fw = c.width ∧ fh = c.height, 3#8),
      (∀ c, s.cfg = some c → s.pixY.len = c.width.toNat * c.height.toNat * c.bps, 3#8),
      (∀ c, s.cfg = some c → c.chroma = .yuv420 →
        s.pixCb.len = c.width.toNat / 2 * (c.height.toNat / 2) * c.bps ∧
        s.pixCr.len = c.width.toNat / 2 * (c.height.toNat / 2) * c.bps, 3#8)]
  | .u n v =>
    [(v.toNat < 2 ^ n.toNat, 6#8),
      (roomFor s.config.bufCap (ceilDiv (s.rbsp.bitPos + n.toNat) 8), 8#8)]
  | .ue v =>
    [(v.toNat ≠ 2 ^ 32 - 1, 6#8),
      (roomFor s.config.bufCap (ceilDiv (s.rbsp.bitPos + ueLength v.toNat) 8), 8#8)]
  | .se v =>
    [(v.toInt ≠ -2 ^ 31, 6#8),
      (roomFor s.config.bufCap (ceilDiv (s.rbsp.bitPos + ueLength (seCodeNum v.toInt)) 8), 8#8)]
  | .trail => [(s.rbsp.used = 0 → roomFor s.config.bufCap (s.rbsp.buf.length + 1), 8#8)]
  | .epb => [(roomFor s.config.escCap (escape s.rbsp.buf).length, 8#8)]
  | .nal ref ty _ => [(¬ (ty = 5#5 ∧ ref = 0#2), 6#8), (s.sinkOk = true, 5#8)]
  | .mbpcm x y =>
    [(∀ c, s.cfg = some c → x.toNat < c.mbw ∧ y.toNat < c.mbh, 6#8),
      (∀ c, s.cfg = some c → MacroblockInRange s c x.toNat y.toNat, 4#8),
      (∀ c, s.cfg = some c →
        roomFor s.config.bufCap (ceilDiv (s.rbsp.bitPos + c.mbBits s.rbsp.used.val) 8), 8#8)]
  | .picpcm =>
    [(∀ c, s.cfg = some c → PictureInRange s c, 4#8),
      (∀ c, s.cfg = some c →
        roomFor s.config.bufCap (ceilDiv (s.rbsp.bitPos + c.picBits s.rbsp.used.val) 8), 8#8)]
  | .align0 => []
  | .bitpos => []
  | .aligned => []

/-- The unit a step delivers, if the next item is an accepted `NAL` command (43_nal.md R161). -/
def deliveredBy (s : State) : List Byte :=
  match s.input with
  | .command w :: _ =>
    match decode w with
    | .ok (.nal ref ty sc) =>
      if s.fault = false ∧ nalTypeLegal ty = true ∧ s.phase = .escaped ∧ ¬ (ty = 5#5 ∧ ref = 0#2) ∧
        s.sinkOk = true then
        (if sc then [0x00#8, 0x00#8, 0x00#8, 0x01#8] else []) ++ [nalHeader ref ty] ++ s.esc
      else []
    | _ => []
  | _ => []

/-- What each step of a run of at most `n` steps delivers, in order. -/
def deliveries : Nat → State → List (List Byte)
  | 0, _ => []
  | n + 1, s =>
    deliveredBy s ::
      match step s with
      | .next t => deliveries n t
      | .fault _ => []
      | .refused _ => []

/-- `MBPCM` for each of a list of macroblocks, as long as none of them faults. -/
def runMacroblocks : List (Nat × Nat) → State → Option State
  | [], s => some s
  | (x, y) :: rest, s =>
    match exec (.mbpcm (BitVec.ofNat 16 x) (BitVec.ofNat 16 y)) s with
    | .next t => if t.fault then none else runMacroblocks rest t
    | .fault _ => none
    | .refused _ => none

/-- The state with other frame memory. -/
def withPlanes (y cb cr : Memory) (s : State) : State := { s with pixY := y, pixCb := cb, pixCr := cr }

end Sys2Proof.Claims

open Sys2Proof Sys2Proof.Machine Sys2Proof.Claims

/-! ## Encoding -/

/-- 30_encoding.md R70 to R72: no operand bit of any command is dropped by its word. -/
def Obligations.DecodeOfEncodeIsTheCommand : Prop :=
  ∀ i : Instr, decode (encode i) = .ok i

/-- 30_encoding.md R70 to R72, R74 (b): a word that decodes is the one word of its command, so no bit of
it is ignored. -/
def Obligations.EncodeOfDecodeIsTheWord : Prop :=
  ∀ (w : CommandWord) (i : Instr), decode w = .ok i → encode i = w

/-- Words of 95_test_vectors.md and 96_test_vectors_units.md decode to the commands they stand for. -/
def Obligations.SampleWordsDecode : Prop :=
  decode 0x01000000000800110011#80 = .ok (.cfg 17#16 17#16 8#8 0#8) ∧
  decode 0x02000000000000100020#80 = .ok (.frame 32#16 16#16) ∧
  decode 0x10080000000000000064#80 = .ok (.u 8#8 100#64) ∧
  decode 0x11000000000000000019#80 = .ok (.ue 25#32) ∧
  decode 0x120000000000FFFFFFFE#80 = .ok (.se (BitVec.ofInt 32 (-2))) ∧
  decode 0x20000000000000000000#80 = .ok .trail ∧
  decode 0x30680000000000000001#80 = .ok (.nal 3#2 8#5 true) ∧
  decode 0x40000000000000010001#80 = .ok (.mbpcm 1#16 1#16)

/-- 30_encoding.md R74: in a block that is not faulted, a presented word raises `IllegalCommand`
exactly when it is one of (a) to (d); every other word is one of the thirteen commands with legal
operands; and an out-of-set `CFG` value is a `ConfigurationError` instead (e). -/
def Obligations.IllegalWordsRaiseIllegalCommand : Prop :=
  ∀ (s : State) (w : CommandWord), s.fault = false → Presents s w →
    (IllegalWord w → ∃ t, step s = .next t ∧ t.fault = true ∧ t.cause = 1#8 ∧ t.out = s.out) ∧
    (¬ IllegalWord w → (∃ i, decode w = .ok i ∧ i.wellFormed = true) ∧
      ∀ t, step s = .next t → ¬ (t.fault = true ∧ t.cause = 1#8)) ∧
    (∀ width height depth chroma, s.cfg = none →
      ¬ (width ≠ 0#16 ∧ height ≠ 0#16 ∧ (depth = 8#8 ∨ depth = 12#8) ∧ (chroma = 0#8 ∨ chroma = 1#8)) →
      Faults (.cfg width height depth chroma) s 2#8)

/-! ## One step -/

/-- 10_state.md R11, 20_memory.md R49: a presented word that decodes is executed, on the state that has
taken it from the port (the port as a list of items is the model's choice, log entry 1). -/
def Obligations.StepExecutesTheDecodedCommand : Prop :=
  ∀ (s : State) (w : CommandWord) (rest : List HostEvent) (i : Instr),
    s.input = .command w :: rest → decode w = .ok i → step s = exec i { s with input := rest }

/-- 20_memory.md R54, 10_state.md R21: the host's load sets one plane and its length and nothing else,
each byte reads back, and the canonical form of the planes is kept. That a load replaces a plane whole
is the model's choice (log entry 6), and so is the canonical form (log entry 5). -/
def Obligations.LoadedPlaneReadsBack : Prop :=
  ∀ (s : State) (p : Plane) (bytes : List Byte) (rest : List HostEvent),
    s.input = .load p bytes :: rest →
    ∃ t, step s = .next t ∧ (t.plane p).len = bytes.length ∧ (t.plane p).wf = true ∧
      (∀ a, (t.plane p).read a = bytes[a]?) ∧
      (∀ q, q ≠ p → t.plane q = s.plane q) ∧
      t = { s with input := rest, pixY := t.pixY, pixCb := t.pixCb, pixCr := t.pixCr }

/-- 60_exceptions.md R259, 43_nal.md R164: with nothing presented a step changes nothing, and the
sink's answer is an input that changes nothing else (log entries 1 and 7: the model's choice of form). -/
def Obligations.IdleAndSinkStepsChangeNothingElse : Prop :=
  (∀ s : State, s.input = [] → step s = .next s) ∧
  (∀ (s : State) (ok : Bool) (rest : List HostEvent), s.input = .sinkAnswer ok :: rest →
    step s = .next { s with input := rest, sinkOk := ok })

/-- 70_reset_and_hazards.md R280: the reset event in any phase and in the faulted state; it delivers
nothing, it is the only step that clears `FAULT` or `CFG_VALID`, and bytes reach `OUT` only through
`NAL`. -/
def Obligations.ResetEventAndItsUniqueness : Prop :=
  (∀ s : State, PresentsReset s → ∃ t, step s = .next t ∧
    t.rbsp.buf = [] ∧ t.rbsp.used = 0 ∧ t.phase = .rbspOpen ∧ t.esc = [] ∧
    t.cfgValid = false ∧ t.frameValid = false ∧ t.fault = false ∧ t.cause = 0#8 ∧ t.res = 0#64 ∧
    t.out = s.out) ∧
  (∀ s t : State, step s = .next t → ¬ PresentsReset s →
    (s.fault = true → t.fault = true) ∧ (s.cfgValid = true → t.cfgValid = true)) ∧
  (∀ s t : State, step s = .next t → t.out ≠ s.out →
    ∃ w ref ty sc, Presents s w ∧ decode w = .ok (.nal ref ty sc))

/-- 70_reset_and_hazards.md R281: what holds right after reset, whatever came before it. "Accepted" is
passing step 3 of R252: no `SequenceError`, for any operands. -/
def Obligations.FactsRightAfterReset : Prop :=
  ∀ s t : State, PresentsReset s → step s = .next t →
    t.rbsp.bitPos = 0 ∧ t.rbsp.aligned = true ∧
    (∃ u, exec .bitpos t = .next u ∧ u.response = some ⟨0#8, 0#64⟩) ∧
    (∃ u, exec .aligned t = .next u ∧ u.response = some ⟨0#8, 1#64⟩) ∧
    (∀ i : Instr, (∃ n v, i = .u n v) ∨ (∃ v, i = .ue v) ∨ (∃ v, i = .se v) ∨ i = .align0 ∨ i = .trail ∨
        (∃ w h d c, i = .cfg w h d c) →
      ∃ u, exec i t = .next u ∧ u.cause ≠ 7#8) ∧
    (∀ i : Instr, (∃ a b, i = .frame a b) ∨ (∃ a b, i = .mbpcm a b) ∨ i = .picpcm ∨ i = .epb ∨
        (∃ r ty sc, i = .nal r ty sc ∧ i.wellFormed = true) →
      Faults i t 7#8)

/-! ## Faults -/

/-- 60_exceptions.md R255: while `FAULT = 1` every word, legal or not, is answered `(CAUSE, 0)` and
changes nothing but `RES`; `CAUSE` is kept and `OUT` is frozen over any run in which the host presents
no reset. -/
def Obligations.FaultedStateRefusesEverything : Prop :=
  (∀ (s : State) (w : CommandWord) (rest : List HostEvent), s.fault = true →
    s.input = .command w :: rest →
    step s = .next { s with input := rest, res := 0#64, response := some ⟨s.cause, 0#64⟩ }) ∧
  (∀ (n : Nat) (s t : State), s.fault = true → HostEvent.reset ∉ s.input →
    Sys2Proof.core.run n s = .next t → t.fault = true ∧ t.cause = s.cause ∧ t.out = s.out)

/-- 60_exceptions.md R254: what fault entry does, for every presented word that faults, and all it
leaves alone. `BUF`, `USED`, `ESC` and `PHASE` are unspecified there, and nothing is said of them. -/
def Obligations.FaultEntryIsPrecise : Prop :=
  ∀ (s t : State) (w : CommandWord), s.fault = false → Presents s w → step s = .next t →
    t.fault = true →
    (1 ≤ t.cause.toNat ∧ t.cause.toNat ≤ 8) ∧ t.res = 0#64 ∧ t.response = some ⟨t.cause, 0#64⟩ ∧
    t.out = s.out ∧ t.cfg = s.cfg ∧ t.frame = s.frame ∧
    (∀ p, t.plane p = s.plane p) ∧ t.config = s.config ∧ t.sinkOk = s.sinkOk ∧
    t.input = s.input.tail

/-- 60_exceptions.md R257: the sequence table decides `SequenceError`, for every command whose encoding
is legal. -/
def Obligations.SequenceTableDecidesSequenceError : Prop :=
  ∀ (i : Instr) (s : State), s.fault = false → i.wellFormed = true →
    (¬ SequenceAccepts i s → Faults i s 7#8) ∧
    (SequenceAccepts i s → ∀ t, exec i s = .next t → ¬ (t.fault = true ∧ t.cause = 7#8))

/-- 60_exceptions.md R252 with R250 and R257: the first failing check decides the fault, in the fixed
order, and a command whose checks all pass is performed. Only where `MBPCM` or `PICPCM` gets as far as its
samples (44_rasterizer.md R185: the sample range, cause 4, and the capacity, cause 8, or the command
itself) must frame memory hold the configured planes (R285), or a sample could not be read (log entry 5);
every other check of every command is asked with frame memory as it stands. -/
def Obligations.FirstFailingCheckDecidesTheFault : Prop :=
  ∀ (i : Instr) (s : State), s.fault = false →
    (∀ before p code after, checks i s = before ++ (p, code) :: after → (∀ q ∈ before, q.1) → ¬ p →
      (ReadsSamples i → code = 4#8 ∨ code = 8#8 → ConfiguredPlanesHold s) → Faults i s code) ∧
    ((∀ q ∈ checks i s, q.1) → (ReadsSamples i → ConfiguredPlanesHold s) →
      ∃ t, exec i s = .next t ∧ t.fault = false ∧ ∃ r, t.res = r ∧ t.response = some ⟨0#8, r⟩)

/-- 43_nal.md R165: an IDR unit with `nal_ref_idc = 0` is refused and emits nothing, and every `NAL`
of type 5 that is performed has another `nal_ref_idc`, which stands in its header unchanged. -/
def Obligations.IdrUnitsAreReferenceUnits : Prop :=
  (∀ (sc : Bool) (s : State), s.fault = false → s.phase = .escaped → Faults (.nal 0#2 5#5 sc) s 6#8) ∧
  (∀ (ref : BitVec 2) (sc : Bool) (s t : State), s.fault = false →
    exec (.nal ref 5#5 sc) s = .next t → t.fault = false →
    ref ≠ 0#2 ∧ t.out = s.out ++ (if sc then [0x00#8, 0x00#8, 0x00#8, 0x01#8] else []) ++
      [BitVec.ofNat 8 (ref.toNat * 32 + 5)] ++ s.esc)

/-! ## The commands performed -/

/-- 45_config.md R211 to R213: a legal configuration is bound, once, and nothing else changes. -/
def Obligations.CfgBindsTheFrameSpec : Prop :=
  ∀ (w h : BitVec 16) (d : BitDepth) (k : Chroma) (s : State),
    s.fault = false → s.cfg = none → (FrameSpec.mk w h d k).Legal →
    exec (.cfg w h (BitVec.ofNat 8 d.bits) (BitVec.ofNat 8 k.code)) s =
      .next { s with cfg := some ⟨w, h, d, k⟩, res := 0#64, response := some ⟨0#8, 0#64⟩ }

/-- 44_rasterizer.md R181: a frame of the configured size with exactly the plane lengths of 20_memory.md
R44 is accepted in every phase; the chroma planes are not looked at in monochrome. -/
def Obligations.FrameIsDeclared : Prop :=
  ∀ (c : FrameSpec) (s : State), s.fault = false → s.cfg = some c →
    s.pixY.len = c.width.toNat * c.height.toNat * c.bps →
    (c.chroma = .yuv420 → s.pixCb.len = c.width.toNat / 2 * (c.height.toNat / 2) * c.bps ∧
      s.pixCr.len = c.width.toNat / 2 * (c.height.toNat / 2) * c.bps) →
    exec (.frame c.width c.height) s =
      .next { s with frame := some ⟨c.width, c.height⟩, res := 0#64, response := some ⟨0#8, 0#64⟩ }

/-- 40_bitwriter.md R102, R101: `U` appends the low `n` bits of the value, most significant first. -/
def Obligations.UAppendsTheField : Prop :=
  ∀ (n : BitVec 8) (v : BitVec 64) (s : State), s.fault = false → s.rbsp.wf = true →
    s.phase = .rbspOpen → n.toNat ≤ 64 → v.toNat < 2 ^ n.toNat →
    roomFor s.config.bufCap (ceilDiv (s.rbsp.bitPos + n.toNat) 8) →
    Appends (.u n v) s (field v.toNat n.toNat)

/-- 41_expgolomb.md R121, 30_encoding.md R76: `UE` appends `L` zeros, a one and the `L` low bits of
`v + 1`, with `L = floor_log2(v + 1)`. -/
def Obligations.UeAppendsTheCode : Prop :=
  ∀ (v : BitVec 32) (l : Nat) (s : State), s.fault = false → s.rbsp.wf = true → s.phase = .rbspOpen →
    v.toNat ≤ 2 ^ 32 - 2 → 2 ^ l ≤ v.toNat + 1 → v.toNat + 1 < 2 ^ (l + 1) →
    roomFor s.config.bufCap (ceilDiv (s.rbsp.bitPos + (2 * l + 1)) 8) →
    Appends (.ue v) s (List.replicate l false ++ [true] ++ field (v.toNat + 1) l)

/-- 41_expgolomb.md R123, 30_encoding.md R77: `SE` appends the unsigned code of `2v - 1` for `v > 0`
and of `2|v|` else. -/
def Obligations.SeAppendsTheMappedCode : Prop :=
  ∀ (v : BitVec 32) (k l : Nat) (s : State), s.fault = false → s.rbsp.wf = true →
    s.phase = .rbspOpen → (0 < v.toInt → (k : Int) = 2 * v.toInt - 1) →
    (v.toInt ≤ 0 → (k : Int) = -2 * v.toInt) → v.toInt ≠ -2 ^ 31 →
    2 ^ l ≤ k + 1 → k + 1 < 2 ^ (l + 1) →
    roomFor s.config.bufCap (ceilDiv (s.rbsp.bitPos + (2 * l + 1)) 8) →
    Appends (.se v) s (List.replicate l false ++ [true] ++ field (k + 1) l)

/-- 40_bitwriter.md R104: `ALIGN0` appends the fewest zeros that reach a byte boundary and changes no
byte of `BUF`. -/
def Obligations.Align0ReachesTheBoundary : Prop :=
  ∀ s : State, s.fault = false → s.rbsp.wf = true → s.phase = .rbspOpen →
    ∃ z, z < 8 ∧ (s.rbsp.bitPos + z) % 8 = 0 ∧ Appends .align0 s (List.replicate z false) ∧
      exec .align0 s = .next { s with
        rbsp := { buf := s.rbsp.buf, used := 0 }, res := 0#64, response := some ⟨0#8, 0#64⟩ }

/-- 40_bitwriter.md R105, R106: the two queries answer the number of bits in `BUF` and whether it is a
multiple of 8, in every phase, and change nothing but `RES` and the response. A count of 2^64 or more
does not fit the result field and its result is left open (log entry 11). -/
def Obligations.QueriesAnswerThePosition : Prop :=
  ∀ s : State, s.fault = false → s.rbsp.wf = true →
    (∃ r, exec .bitpos s = .next { s with res := r, response := some ⟨0#8, r⟩ } ∧
      (s.rbsp.bits.length < 2 ^ 64 → r.toNat = s.rbsp.bits.length)) ∧
    (∃ r, exec .aligned s = .next { s with res := r, response := some ⟨0#8, r⟩ } ∧
      r.toNat = if s.rbsp.bits.length % 8 = 0 then 1 else 0)

/-- 42_rbsp.md R141, 30_encoding.md R82: `TRAIL` appends a one and the fewest zeros that reach a byte
boundary, and closes the RBSP; its last byte is not zero (R142). -/
def Obligations.TrailClosesTheRbsp : Prop :=
  ∀ s : State, s.fault = false → s.rbsp.wf = true → s.phase = .rbspOpen →
    (s.rbsp.used = 0 → roomFor s.config.bufCap (s.rbsp.buf.length + 1)) →
    ∃ (b : BitBuffer) (z : Nat),
      exec .trail s = .next { s with
        rbsp := b, phase := .trailed, res := 0#64, response := some ⟨0#8, 0#64⟩ } ∧
      b.bits = s.rbsp.bits ++ true :: List.replicate z false ∧ z < 8 ∧ b.used = 0 ∧
      ∃ x, b.buf.getLast? = some x ∧ x ≠ 0x00#8

/-- 42_rbsp.md R143: `EPB` fills `ESC` with the escaped `BUF`, leaves `BUF` alone, and answers the
number of bytes inserted. -/
def Obligations.EpbFillsTheEscapedBuffer : Prop :=
  ∀ s : State, s.fault = false → s.phase = .trailed →
    roomFor s.config.escCap (escape s.rbsp.buf).length →
    ∃ r, exec .epb s = .next { s with
        esc := escape s.rbsp.buf, phase := .escaped, res := r, response := some ⟨0#8, r⟩ } ∧
      ((escape s.rbsp.buf).length < 2 ^ 64 →
        r.toNat = ((escapeMarked 0 s.rbsp.buf).filter (fun m => m.2)).length ∧
        r.toNat + s.rbsp.buf.length = (escape s.rbsp.buf).length)

/-- 43_nal.md R161: an accepted `NAL` appends the whole unit to `OUT`, empties the buffers, reopens the
phase and answers the unit's length. -/
def Obligations.NalDeliversTheUnit : Prop :=
  ∀ (ref : BitVec 2) (ty : BitVec 5) (sc : Bool) (s : State), s.fault = false → s.phase = .escaped →
    ty.toNat ∈ [1, 5, 7, 8] → ¬ (ty.toNat = 5 ∧ ref.toNat = 0) → s.sinkOk = true →
    ∃ r, exec (.nal ref ty sc) s = .next { s with
        out := s.out ++ (if sc then [0x00#8, 0x00#8, 0x00#8, 0x01#8] else []) ++
          [BitVec.ofNat 8 (ref.toNat * 32 + ty.toNat)] ++ s.esc,
        rbsp := { buf := [], used := 0 }, esc := [], phase := .rbspOpen, res := r,
        response := some ⟨0#8, r⟩ } ∧
      (s.esc.length + 5 < 2 ^ 64 → r.toNat = s.esc.length + if sc then 5 else 1)

/-- 44_rasterizer.md R183 to R185, 30_encoding.md R83: `MBPCM` appends the nine bits of `mb_type`, the
fewest zeros that reach a byte boundary, and the samples of the macroblock, zero outside the picture;
it ends aligned. -/
def Obligations.MbpcmAppendsTheMacroblock : Prop :=
  ∀ (x y : BitVec 16) (c : FrameSpec) (f : FrameDims) (s : State), s.fault = false →
    s.rbsp.wf = true → s.phase = .rbspOpen → s.cfg = some c → s.frame = some f →
    x.toNat < c.mbw → y.toNat < c.mbh → PlanesHold s c → MacroblockInRange s c x.toNat y.toNat →
    roomFor s.config.bufCap (ceilDiv (s.rbsp.bitPos + c.mbBits s.rbsp.used.val) 8) →
    ∃ z, z < 8 ∧ (s.rbsp.bitPos + 9 + z) % 8 = 0 ∧
      Appends (.mbpcm x y) s ([false, false, false, false, true, true, false, true, false] ++
        List.replicate z false ++ macroblockSampleBits s c x.toNat y.toNat)

/-- 44_rasterizer.md R187, R188: `PICPCM` appends to `BUF` and changes nothing else but `RES`; every
luma and chroma position of the padded picture stands at the bit R188 computes, the pixel inside the
picture and 0 outside it. -/
def Obligations.PicpcmPlacesEveryPixel : Prop :=
  ∀ (c : FrameSpec) (f : FrameDims) (s : State), s.fault = false → s.Inv → s.phase = .rbspOpen →
    s.cfg = some c → s.frame = some f → PlanesHold s c → PictureInRange s c →
    roomFor s.config.bufCap (ceilDiv (s.rbsp.bitPos + c.picBits s.rbsp.used.val) 8) →
    ∃ bits, Appends .picpcm s bits ∧ bits.length = c.picBits s.rbsp.used.val ∧
      ∀ (p : Plane) (x y : Nat), c.hasPlane p = true → x < p.tileSide * c.mbw →
        y < p.tileSide * c.mbh →
        bitsAt (s.rbsp.bits ++ bits)
          (8 * ceilDiv (s.rbsp.bitPos + 9) 8 +
            (y / p.tileSide * c.mbw + x / p.tileSide) *
              ((256 + 128 * c.chroma.code) * c.depth.bits + 16) +
            ((match p with | .y => 0 | .cb => 256 | .cr => 320) +
              p.tileSide * (y % p.tileSide) + x % p.tileSide) * c.depth.bits)
          c.depth.bits = field (shown s c p x y) c.depth.bits

/-- 44_rasterizer.md R187: `PICPCM` is performed and leaves a state exactly when the `MBPCM` commands of
all macroblocks, `mb_x` fastest, are performed one after another, and then it leaves the same state. -/
def Obligations.PicpcmIsTheMacroblocksInRasterOrder : Prop :=
  ∀ (c : FrameSpec) (s t : State), s.fault = false → s.Inv → s.cfg = some c →
    ((exec .picpcm s = .next t ∧ t.fault = false) ↔
      runMacroblocks ((List.range (c.mbw * c.mbh)).map fun k => (k % c.mbw, k / c.mbw)) s = some t)

/-! ## Laws of the bit writer and the codes -/

/-- 40_bitwriter.md R101: two writes are one write of the joined value. -/
def Obligations.TwoWritesAreOneWrite : Prop :=
  ∀ (m n : BitVec 8) (a b : BitVec 64) (s : State), s.fault = false → s.rbsp.wf = true →
    s.phase = .rbspOpen → m.toNat + n.toNat ≤ 64 → a.toNat < 2 ^ m.toNat → b.toNat < 2 ^ n.toNat →
    roomFor s.config.bufCap (ceilDiv (s.rbsp.bitPos + m.toNat + n.toNat) 8) →
    ∃ t u, exec (.u m a) s = .next t ∧ exec (.u n b) t = .next u ∧
      exec (.u (m + n) (BitVec.ofNat 64 (a.toNat * 2 ^ n.toNat + b.toNat))) s = .next u

/-- 20_memory.md R48, 40_bitwriter.md R107: how many bits each appending command adds when it is
performed. -/
def Obligations.AppendedAmounts : Prop :=
  ∀ (i : Instr) (s t : State), s.fault = false → s.rbsp.wf = true → exec i s = .next t →
    t.fault = false →
    match i with
    | .u n _ => t.rbsp.bitPos = s.rbsp.bitPos + n.toNat
    | .ue _ => s.rbsp.bitPos + 1 ≤ t.rbsp.bitPos ∧ t.rbsp.bitPos ≤ s.rbsp.bitPos + 63
    | .se _ => s.rbsp.bitPos + 1 ≤ t.rbsp.bitPos ∧ t.rbsp.bitPos ≤ s.rbsp.bitPos + 63
    | .align0 => s.rbsp.bitPos ≤ t.rbsp.bitPos ∧ t.rbsp.bitPos ≤ s.rbsp.bitPos + 7
    | .trail => s.rbsp.bitPos + 1 ≤ t.rbsp.bitPos ∧ t.rbsp.bitPos ≤ s.rbsp.bitPos + 8
    | .mbpcm _ _ => ∀ c, s.cfg = some c → ∃ z, z ≤ 7 ∧
        t.rbsp.bitPos = s.rbsp.bitPos + 9 + z + (256 + 128 * c.chroma.code) * c.depth.bits
    | .nal _ _ _ => t.rbsp.bitPos = 0
    | .picpcm => ∀ c, s.cfg = some c → 0 < c.nmb →
        t.rbsp.bitPos = s.rbsp.bitPos + c.picBits s.rbsp.used.val
    | .cfg _ _ _ _ => t.rbsp = s.rbsp
    | .frame _ _ => t.rbsp = s.rbsp
    | .bitpos => t.rbsp = s.rbsp
    | .aligned => t.rbsp = s.rbsp
    | .epb => t.rbsp = s.rbsp

/-- 41_expgolomb.md R122: length, no code begins another, unique decoding of a concatenation and the
inverse, and order. -/
def Obligations.UeCodeLaws : Prop :=
  (∀ v, (ueBits v).length = 2 * Nat.log2 (v + 1) + 1) ∧
  (∀ v w, ueBits v <+: ueBits w → v = w) ∧
  (∀ v rest, readUe (ueBits v ++ rest) = some (v, rest)) ∧
  (∀ l m : List Nat, l.flatMap ueBits = m.flatMap ueBits → l = m) ∧
  (∀ v w, v < w → (ueBits v).length ≤ (ueBits w).length)

/-- 41_expgolomb.md R124: the signed map is a bijection with the stated inverse, so decoding inverts
coding; the codes of `k` and `-k` differ exactly in their last bit; and the lengths. -/
def Obligations.SeCodeLaws : Prop :=
  (∀ v : Int, seValue (seCodeNum v) = v) ∧
  (∀ k : Nat, seCodeNum (seValue k) = k) ∧
  (∀ (v : Int) (rest : List Bool), ∃ k, readUe (seBits v ++ rest) = some (k, rest) ∧ seValue k = v) ∧
  (∀ k : Nat, 0 < k → seCodeNum k + 1 = 2 * k ∧ seCodeNum (-k) + 1 = 2 * k + 1 ∧
    egPrefixLength (seCodeNum k) = Nat.log2 (2 * k) ∧
    egPrefixLength (seCodeNum (-k)) = Nat.log2 (2 * k) ∧
    ∃ common, seBits k = common ++ [false] ∧ seBits (-k) = common ++ [true]) ∧
  (∀ v : Int, v ≠ 0 → (seBits v).length = 2 * Nat.log2 (2 * v.natAbs) + 1 ∧
    (seBits v).length = 2 * Nat.log2 v.natAbs + 3) ∧
  (seBits 0).length = 1

/-! ## Emulation prevention -/

/-- 42_rbsp.md R145 (a), (d), (e): where a byte of at most `0x03` follows two zero bytes of the escaped
form it is an inserted `0x03` (so `00 00 00`, `00 00 01` and `00 00 02` do not occur, and every
`00 00 03` is an insertion), also with a non-zero header byte in front; and the escaped form ends in a
zero byte only if the source does. R145 (a) says the byte after two zero bytes is always the inserted
one, which vector V29c (`00 00 80`) contradicts: log entry 13. -/
def Obligations.EscapedFormHasNoStartCode : Prop :=
  (∀ (s : List Byte) (k : Nat) (x : Byte × Bool),
    ((escapeMarked 0 s)[k]?).map Prod.fst = some 0x00#8 →
    ((escapeMarked 0 s)[k + 1]?).map Prod.fst = some 0x00#8 →
    (escapeMarked 0 s)[k + 2]? = some x → x.1.toNat ≤ 3 → x = (0x03#8, true)) ∧
  (∀ (s : List Byte) (h : Byte) (k : Nat) (x : Byte), h ≠ 0x00#8 →
    (h :: escape s)[k]? = some 0x00#8 → (h :: escape s)[k + 1]? = some 0x00#8 →
    (h :: escape s)[k + 2]? = some x → x.toNat ≤ 3 → x = 0x03#8) ∧
  (∀ s : List Byte, s.getLast? ≠ some 0x00#8 → (escape s).getLast? ≠ some 0x00#8)

/-- 42_rbsp.md R145 (b): removing the inserted bytes gives the source back. -/
def Obligations.UnescapeInvertsEscape : Prop :=
  ∀ s : List Byte, unescape (escape s) = s

/-- 42_rbsp.md R145 (c), 10_state.md R17, 90_conflicts.md C7: the escaped form grows by at most one byte
for two; and a run of zeros reaches the counts of R143. -/
def Obligations.EscapedLengthBounds : Prop :=
  (∀ s : List Byte, s.length ≤ (escape s).length ∧ (escape s).length ≤ s.length + s.length / 2) ∧
  (∀ (m : Nat) (b : Byte), b ≠ 0x00#8 →
    (escape (List.replicate m 0x00#8 ++ [b])).length =
      m + 1 + if b.toNat ≤ 3 then m / 2 else (m - 1) / 2)

/-! ## Addresses and headers -/

/-- 20_memory.md R43, R44: the address of every in-picture sample is a multiple of `BPS` inside its
plane, below 2^33, and no two samples of a plane share one. -/
def Obligations.SampleAddressesLieInThePlane : Prop :=
  ∀ (c : FrameSpec) (p : Plane) (x y : Nat), x < c.planeWidth p → y < c.planeHeight p →
    c.sampleAddress p x y % c.bps = 0 ∧
    c.sampleAddress p x y + c.bps ≤ c.planeBytes p ∧ c.planeBytes p < 2 ^ 33 ∧
    ∀ x' y', x' < c.planeWidth p → y' < c.planeHeight p →
      c.sampleAddress p x' y' = c.sampleAddress p x y → x' = x ∧ y' = y

/-- 43_nal.md R162: the header is the `ARG` field of the command; its legal values are these fifteen, all
non-zero, the only one at most `0x03` is `0x01`, and it follows the start code's `01` or nothing. -/
def Obligations.NalHeaderBytes : Prop :=
  (∀ (ref : BitVec 2) (ty : BitVec 5) (sc : Bool),
    nalHeader ref ty = argField (encode (.nal ref ty sc)) ∧
    (nalHeader ref ty).toNat = ref.toNat * 32 + ty.toNat) ∧
  (∀ b : Byte, (∃ (ref : BitVec 2) (ty : BitVec 5),
      ty.toNat ∈ [1, 5, 7, 8] ∧ b = nalHeader ref ty ∧ b ≠ 0x05#8) ↔
    b.toNat ∈ [0x01, 0x21, 0x41, 0x61, 0x25, 0x45, 0x65, 0x07, 0x27, 0x47, 0x67, 0x08, 0x28, 0x48, 0x68]) ∧
  (∀ (ref : BitVec 2) (ty : BitVec 5), ty.toNat ∈ [1, 5, 7, 8] →
    nalHeader ref ty ≠ 0x00#8 ∧ ((nalHeader ref ty).toNat ≤ 3 → nalHeader ref ty = 0x01#8)) ∧
  (∀ (ref : BitVec 2) (ty : BitVec 5) (esc : List Byte),
    nalUnit ref ty false esc = nalHeader ref ty :: esc ∧
    nalUnit ref ty true esc = 0x00#8 :: 0x00#8 :: 0x00#8 :: 0x01#8 :: nalHeader ref ty :: esc)

/-! ## The whole machine -/

/-- The invariant holds at reset. 10_state.md R24 and 70_reset_and_hazards.md R280 give the values of the
buffers, `PHASE`, the valid bits, `FAULT` and `CAUSE`; the unbounded capacities (log entry 2), the absent
registers `W`, `H`, `DEPTH`, `CHROMA`, `FW`, `FH` (log entry 3), the planes with nothing loaded (log entry 4)
and their canonical form (log entry 5) are the model's choice. -/
def Obligations.ResetMeetsTheInvariant : Prop := State.reset.Inv

/-- 10_state.md R12, R14 to R18, 20_memory.md R53, 42_rbsp.md R142: every step keeps the invariant, from
every state that meets it. That frame memory keeps its canonical form is the model's choice (log entry 5),
no rule of the spec. -/
def Obligations.EveryStepKeepsTheInvariant : Prop :=
  ∀ s t : State, s.Inv → step s = .next t → t.Inv

/-- 10_state.md R21, 20_memory.md R49, 00_scope.md R4: the frame all thirteen commands share. No command
changes a byte or the length of frame memory, a parameter, the sink's line or what is still presented,
and only `NAL` changes `OUT`, only `CFG` the configuration, only `FRAME` the frame descriptor. -/
def Obligations.CommandsChangeOnlyTheirOwnState : Prop :=
  ∀ (i : Instr) (s t : State), exec i s = .next t →
    (∀ p a, (t.plane p).read a = (s.plane p).read a ∧ (t.plane p).len = (s.plane p).len) ∧
    t.config = s.config ∧ t.sinkOk = s.sinkOk ∧ t.input = s.input ∧
    ((∀ ref ty sc, i ≠ .nal ref ty sc) → t.out = s.out) ∧
    ((∀ w h d c, i ≠ .cfg w h d c) → t.cfg = s.cfg) ∧
    ((∀ a b, i ≠ .frame a b) → t.frame = s.frame)

/-- 10_state.md R14: `TRAIL`, `EPB` and `NAL` move the phase as stated and no other command that is
performed changes it. -/
def Obligations.PhaseMovesOnlyByItsThreeCommands : Prop :=
  ∀ (i : Instr) (s t : State), s.fault = false → exec i s = .next t → t.fault = false →
    t.phase = s.phase ∨
    (i = .trail ∧ s.phase = .rbspOpen ∧ t.phase = .trailed) ∨
    (i = .epb ∧ s.phase = .trailed ∧ t.phase = .escaped) ∨
    ((∃ ref ty sc, i = .nal ref ty sc) ∧ s.phase = .escaped ∧ t.phase = .rbspOpen)

/-- 10_state.md R15, R16: the configuration is bound once; only the reset event unbinds it, only an
accepted `CFG` binds it, and a declared frame keeps the configured size. -/
def Obligations.ConfigurationIsBoundOnce : Prop :=
  ∀ s t : State, s.Inv → step s = .next t → ¬ PresentsReset s →
    (∀ c, s.cfg = some c → t.cfg = some c) ∧
    (∀ c, s.cfg = none → t.cfg = some c → c.Legal ∧ ∃ w d k, Presents s w ∧
      decode w = .ok (.cfg c.width c.height d k) ∧ d.toNat = c.depth.bits ∧ k.toNat = c.chroma.code) ∧
    (∀ f, t.frame = some f → ∃ c, t.cfg = some c ∧ f.fw = c.width ∧ f.fh = c.height)

/-- 43_nal.md R163: `OUT` after a run is exactly what it was, followed by the units of the accepted `NAL`
commands, whole and in command order. -/
def Obligations.OutIsTheUnitsOfTheAcceptedNals : Prop :=
  ∀ (n : Nat) (s t : State), Sys2Proof.core.run n s = .next t →
    t.out = s.out ++ (deliveries n s).flatten

/-- 42_rbsp.md R142, R145, 43_nal.md R161, R165: every unit delivered from a state that meets the
invariant is an optional start code, a legal header byte, and the escaped form of an RBSP that ends in a
byte that is not zero; so `unescape` gives that RBSP back. -/
def Obligations.EveryDeliveredUnitIsWellFormed : Prop :=
  ∀ (n : Nat) (s t : State), s.Inv → Sys2Proof.core.run n s = .next t →
    ∀ unit ∈ deliveries n s, unit = [] ∨
      ∃ (ref : BitVec 2) (ty : BitVec 5) (sc : Bool) (rbsp : List Byte) (x : Byte),
        unit = (if sc then [0x00#8, 0x00#8, 0x00#8, 0x01#8] else []) ++
          [BitVec.ofNat 8 (ref.toNat * 32 + ty.toNat)] ++ escape rbsp ∧
        ty.toNat ∈ [1, 5, 7, 8] ∧ (ty.toNat = 5 → ref.toNat ≠ 0) ∧
        rbsp.getLast? = some x ∧ x ≠ 0x00#8 ∧ unescape (escape rbsp) = rbsp

/-- 45_config.md R211, 20_memory.md R40: only `FRAME`, `MBPCM` and `PICPCM` read frame memory. Every
other command does the same whatever stands there: it is performed on both contents, to the same state
but for them, or it takes the same fault on both. -/
def Obligations.OnlyTheRasterizerReadsFrameMemory : Prop :=
  ∀ (i : Instr) (s t : State) (y cb cr : Memory),
    (∀ a b, i ≠ .frame a b) → (∀ a b, i ≠ .mbpcm a b) → i ≠ .picpcm → exec i s = .next t →
    (t.fault = false → exec i (withPlanes y cb cr s) = .next (withPlanes y cb cr t)) ∧
    (t.fault = true → ∃ u, exec i (withPlanes y cb cr s) = .next u ∧ u.fault = true ∧
      u.cause = t.cause ∧ u.response = t.response ∧ u.out = t.out)

/-- 20_memory.md R45, R285: the one stop of the model. `MBPCM` and `PICPCM` stop by name only where the
host has left a plane shorter than the configured one, and no other command ever stops; without the stop
every command answers a next state. The name of the stop is the model's choice (log entry 5). -/
def Obligations.TheOnlyStopIsAReadOutsideAPlane : Prop :=
  ∀ (i : Instr) (s : State),
    (∃ t, exec i s = .next t) ∨
    (exec i s = .fault .outOfPlaneRead ∧ ((∃ a b, i = .mbpcm a b) ∨ i = .picpcm) ∧
      ∃ c, s.cfg = some c ∧ ¬ PlanesHold s c)
end

