-- ==== Sys2Proof/Laws/BitBuffer.lean ====
section
/-! SUPPORT. The laws of the bit buffer: what appending does to the bit-string view, the position, the
partial byte and the invariant of 10_state.md R12. Later proofs cite these and unfold nothing here. -/

namespace Sys2Proof.Machine

@[simp] theorem length_msbFirst (v n : Nat) : (msbFirst v n).length = n := by
  induction n with
  | zero => rfl
  | succ n ih => simp [msbFirst, ih]

theorem msbFirst_eq_map_range (v n : Nat) :
    msbFirst v n = (List.range n).reverse.map v.testBit := by
  induction n with
  | zero => rfl
  | succ n ih => simp [msbFirst, ih, List.range_succ]

@[simp] theorem length_byteBits (b : Byte) : (byteBits b).length = 8 := length_msbFirst _ _

theorem length_flatMap_byteBits (l : List Byte) : (l.flatMap byteBits).length = 8 * l.length := by
  simp [Nat.mul_comm]

/-! ## Splitting a buffer at its partial byte -/

theorem orIntoLast_append_single (mask x : Byte) (init : List Byte) :
    orIntoLast mask (init ++ [x]) = init ++ [x ||| mask] := by
  induction init with
  | nil => rfl
  | cons y init ih =>
    cases init with
    | nil => rfl
    | cons z init => simpa [orIntoLast] using ih

/-- A buffer whose invariant holds is aligned, or ends in a partial byte with zero low bits. -/
theorem BitBuffer.wf_cases {s : BitBuffer} (h : s.wf = true) :
    s.used = 0 ∨ s.used ≠ 0 ∧ ∃ init x, s.buf = init ++ [x] ∧ x.toNat % 2 ^ (8 - s.used.val) = 0 := by
  rcases eq_or_ne s.used 0 with h0 | h0
  · exact .inl h0
  · refine .inr ⟨h0, ?_⟩
    rcases List.eq_nil_or_concat s.buf with hb | ⟨init, x, hb⟩
    · simp [BitBuffer.wf, h0, hb] at h
    · refine ⟨init, x, by simpa using hb, ?_⟩
      simpa [BitBuffer.wf, h0, hb] using h

theorem BitBuffer.wf_of_used_zero {s : BitBuffer} (h : s.used = 0) : s.wf = true := by
  simp [BitBuffer.wf, h]

theorem BitBuffer.bitPos_of_used_zero {s : BitBuffer} (h : s.used = 0) :
    s.bitPos = 8 * s.buf.length := by
  simp [BitBuffer.bitPos, h]

theorem BitBuffer.bitPos_of_partial {s : BitBuffer} {init : List Byte} {x : Byte} (h : s.used ≠ 0)
    (hb : s.buf = init ++ [x]) : s.bitPos = 8 * init.length + s.used.val := by
  simp [BitBuffer.bitPos, h, hb]

theorem BitBuffer.bits_of_used_zero {s : BitBuffer} (h : s.used = 0) :
    s.bits = s.buf.flatMap byteBits := by
  rw [BitBuffer.bits, s.bitPos_of_used_zero h]
  exact List.take_of_length_le (length_flatMap_byteBits _).le

theorem BitBuffer.bits_of_partial {s : BitBuffer} {init : List Byte} {x : Byte} (h : s.used ≠ 0)
    (hb : s.buf = init ++ [x]) :
    s.bits = init.flatMap byteBits ++ (byteBits x).take s.used.val := by
  rw [BitBuffer.bits, s.bitPos_of_partial h hb, hb, List.flatMap_append, List.take_append,
    List.take_of_length_le (by rw [length_flatMap_byteBits]; omega), length_flatMap_byteBits,
    Nat.add_sub_cancel_left]
  simp

/-! ## One bit into a byte: the finite facts -/

theorem byteBits_first_bit (b : Bool) : (byteBits (bitInByte b 0)).take 1 = [b] := by
  cases b <;> decide

theorem byteBits_or_bit (x : Fin 256) (k : Fin 8) (b : Bool) (hk : k ≠ 0)
    (hx : x.val % 2 ^ (8 - k.val) = 0) :
    (byteBits (BitVec.ofFin x ||| bitInByte b k.val)).take (k.val + 1) =
      (byteBits (BitVec.ofFin x)).take k.val ++ [b] := by
  revert x k b; decide +kernel

theorem low_bits_first_bit (b : Bool) : (bitInByte b 0).toNat % 2 ^ 7 = 0 := by
  cases b <;> decide

theorem low_bits_or_bit (x : Fin 256) (k : Fin 8) (b : Bool) (hk : k.val ≠ 7)
    (hx : x.val % 2 ^ (8 - k.val) = 0) :
    (BitVec.ofFin x ||| bitInByte b k.val).toNat % 2 ^ (7 - k.val) = 0 := by
  revert x k b; decide +kernel

/-! ## Appending one bit (40_bitwriter.md R100) -/

theorem BitBuffer.appendBit_of_used_zero {s : BitBuffer} (b : Bool) (h : s.used = 0) :
    s.appendBit b = { buf := s.buf ++ [bitInByte b 0], used := 1 } := by
  simp [BitBuffer.appendBit, h]

theorem BitBuffer.appendBit_of_partial {s : BitBuffer} {init : List Byte} {x : Byte} (b : Bool)
    (h : s.used ≠ 0) (hb : s.buf = init ++ [x]) :
    s.appendBit b = { buf := init ++ [x ||| bitInByte b s.used.val], used := s.used + 1 } := by
  simp [BitBuffer.appendBit, h, hb, orIntoLast_append_single]

theorem used_succ_val (k : Fin 8) : (k + 1).val = (k.val + 1) % 8 := by
  revert k; decide

theorem BitBuffer.used_appendBit (s : BitBuffer) (b : Bool) :
    (s.appendBit b).used.val = (s.used.val + 1) % 8 := by
  unfold BitBuffer.appendBit
  split
  · next h => simp [h]
  · exact used_succ_val _

theorem BitBuffer.wf_appendBit {s : BitBuffer} (b : Bool) (h : s.wf = true) :
    (s.appendBit b).wf = true := by
  rcases BitBuffer.wf_cases h with h0 | ⟨h0, init, x, hb, hx⟩
  · rw [s.appendBit_of_used_zero b h0]
    simpa [BitBuffer.wf] using low_bits_first_bit b
  · rw [s.appendBit_of_partial b h0 hb]
    by_cases h7 : s.used.val = 7
    · have : s.used + 1 = 0 := by
        apply Fin.ext; rw [used_succ_val, h7]; rfl
      simp [BitBuffer.wf, this]
    · have hv : (s.used + 1).val = s.used.val + 1 := by
        rw [used_succ_val]; have := s.used.isLt; omega
      have := low_bits_or_bit x.toFin s.used b h7 (by simpa using hx)
      have h8 : 8 - (s.used + 1).val = 7 - s.used.val := by omega
      unfold BitBuffer.wf
      rw [h8]
      simpa using .inr this

theorem BitBuffer.bits_appendBit {s : BitBuffer} (b : Bool) (h : s.wf = true) :
    (s.appendBit b).bits = s.bits ++ [b] := by
  rcases BitBuffer.wf_cases h with h0 | ⟨h0, init, x, hb, hx⟩
  · rw [s.appendBit_of_used_zero b h0,
      BitBuffer.bits_of_partial (init := s.buf) (x := bitInByte b 0) (by simp) rfl,
      s.bits_of_used_zero h0]
    simpa using byteBits_first_bit b
  · have key := byteBits_or_bit x.toFin s.used b h0 (by simpa using hx)
    rw [s.appendBit_of_partial b h0 hb, s.bits_of_partial h0 hb]
    by_cases h7 : s.used.val = 7
    · have hz : s.used + 1 = 0 := by
        apply Fin.ext; rw [used_succ_val, h7]; rfl
      rw [BitBuffer.bits_of_used_zero hz]
      have hfull : (byteBits (x ||| bitInByte b s.used.val)).take 8 =
          byteBits (x ||| bitInByte b s.used.val) := List.take_of_length_le (by simp)
      rw [h7] at key hfull ⊢
      simp only [List.flatMap_append, List.flatMap_singleton, List.append_assoc]
      rw [← hfull]; simpa using key
    · have hv : (s.used + 1).val = s.used.val + 1 := by
        rw [used_succ_val]; have := s.used.isLt; omega
      rw [BitBuffer.bits_of_partial (init := init) (x := x ||| bitInByte b s.used.val)
        (fun hz => by have := congrArg Fin.val hz; simp only [hv] at this; simp at this) rfl]
      simp only [hv, List.append_assoc]
      simpa using key

/-! ## Appending a string of bits (40_bitwriter.md R101) -/

@[simp] theorem BitBuffer.appendBits_nil (s : BitBuffer) (h : s.wf = true) : s.appendBits [] = s := by
  rcases BitBuffer.wf_cases h with h0 | ⟨h0, init, x, hb, _⟩
  · cases s; simp_all [BitBuffer.appendBits, spill]
  · cases s; simp_all [BitBuffer.appendBits, spill]

theorem BitBuffer.eq_of_fields {s t : BitBuffer} (hb : s.buf = t.buf) (hu : s.used.val = t.used.val) :
    s = t := by
  cases s; cases t; simp_all [Fin.ext_iff]

theorem BitBuffer.appendBits_cons {s : BitBuffer} (b : Bool) (l : List Bool) (h : s.wf = true) :
    s.appendBits (b :: l) = (s.appendBit b).appendBits l := by
  rcases BitBuffer.wf_cases h with h0 | ⟨h0, init, x, hb, _⟩
  · rw [s.appendBit_of_used_zero b h0]
    simp [BitBuffer.appendBits, h0, spill, Nat.add_comm]
  · rw [s.appendBit_of_partial b h0 hb]
    have hk : s.used.val ≠ 0 := fun hv => h0 (Fin.ext hv)
    by_cases h7 : s.used.val = 7
    · have hz : s.used + 1 = 0 := by
        apply Fin.ext; rw [used_succ_val, h7]; rfl
      simp only [BitBuffer.appendBits, h0, hz, if_false, if_true, hb, spill, h7,
        List.getLast?_append, List.dropLast_concat]
      exact BitBuffer.eq_of_fields (by simp) (by simp only [List.length_cons, Fin.val_ofNat]; omega)
    · have hv : (s.used + 1).val = s.used.val + 1 := by
        rw [used_succ_val]; have := s.used.isLt; omega
      have hz : s.used + 1 ≠ 0 := fun hz => by
        have := congrArg Fin.val hz; simp only [hv] at this; simp at this
      simp only [BitBuffer.appendBits, h0, hz, if_false, hb, spill, h7, hv]
      exact BitBuffer.eq_of_fields (by simp) (by simp only [List.length_cons, Fin.val_ofNat]; omega)

/-- Appending many bits at a time is `append_bit` for one bit after another (40_bitwriter.md R100, R101). -/
theorem BitBuffer.appendBits_eq_foldl {s : BitBuffer} (l : List Bool) (h : s.wf = true) :
    s.appendBits l = l.foldl BitBuffer.appendBit s := by
  induction l generalizing s with
  | nil => exact s.appendBits_nil h
  | cons b l ih => rw [s.appendBits_cons b l h, ih (s.wf_appendBit b h)]; rfl

theorem BitBuffer.wf_appendBits {s : BitBuffer} (l : List Bool) (h : s.wf = true) :
    (s.appendBits l).wf = true := by
  induction l generalizing s with
  | nil => rwa [s.appendBits_nil h]
  | cons b l ih => rw [s.appendBits_cons b l h]; exact ih (s.wf_appendBit b h)

/-- `BITS <- BITS ++ new bits` (10_state.md R13). -/
theorem BitBuffer.bits_appendBits {s : BitBuffer} (l : List Bool) (h : s.wf = true) :
    (s.appendBits l).bits = s.bits ++ l := by
  induction l generalizing s with
  | nil => rw [s.appendBits_nil h]; simp
  | cons b l ih =>
    rw [s.appendBits_cons b l h, ih (s.wf_appendBit b h), s.bits_appendBit b h]; simp

theorem BitBuffer.used_appendBits (s : BitBuffer) (l : List Bool) :
    (s.appendBits l).used.val = (s.used.val + l.length) % 8 := by
  unfold BitBuffer.appendBits
  split
  · next h => simp [h]
  · simp

theorem BitBuffer.length_bits {s : BitBuffer} (h : s.wf = true) : s.bits.length = s.bitPos := by
  rcases BitBuffer.wf_cases h with h0 | ⟨h0, init, x, hb, _⟩
  · rw [s.bits_of_used_zero h0, s.bitPos_of_used_zero h0, length_flatMap_byteBits]
  · rw [s.bits_of_partial h0 hb, s.bitPos_of_partial h0 hb]
    have := s.used.isLt
    simp; omega

theorem BitBuffer.bitPos_appendBits {s : BitBuffer} (l : List Bool) (h : s.wf = true) :
    (s.appendBits l).bitPos = s.bitPos + l.length := by
  rw [← BitBuffer.length_bits (s.wf_appendBits l h), s.bits_appendBits l h, List.length_append,
    s.length_bits h]

theorem BitBuffer.bitPos_mod {s : BitBuffer} (h : s.wf = true) : s.bitPos % 8 = s.used.val := by
  rcases BitBuffer.wf_cases h with h0 | ⟨h0, init, x, hb, _⟩
  · rw [s.bitPos_of_used_zero h0, h0]; simp
  · rw [s.bitPos_of_partial h0 hb]; have := s.used.isLt; omega

/-- The bytes in use are the bits written, rounded up (40_bitwriter.md R107). -/
theorem BitBuffer.length_buf {s : BitBuffer} (h : s.wf = true) : s.buf.length = ceilDiv s.bitPos 8 := by
  rcases BitBuffer.wf_cases h with h0 | ⟨h0, init, x, hb, _⟩
  · rw [s.bitPos_of_used_zero h0, ceilDiv]; omega
  · rw [s.bitPos_of_partial h0 hb, ceilDiv, hb]
    have := s.used.isLt
    have : s.used.val ≠ 0 := fun hv => h0 (Fin.ext hv)
    simp; omega

theorem BitBuffer.appendBits_append {s : BitBuffer} (l m : List Bool) (h : s.wf = true) :
    (s.appendBits l).appendBits m = s.appendBits (l ++ m) := by
  rw [BitBuffer.appendBits_eq_foldl m (s.wf_appendBits l h), s.appendBits_eq_foldl l h,
    s.appendBits_eq_foldl (l ++ m) h, List.foldl_append]

/-! ## Alignment (40_bitwriter.md R104) -/

@[simp] theorem length_alignmentZeros (used : Nat) :
    (alignmentZeros used).length = (8 - used % 8) % 8 := by
  simp [alignmentZeros]

@[simp] theorem BitBuffer.used_alignZero (s : BitBuffer) : s.alignZero.used = 0 := by
  apply Fin.ext
  have := s.used.isLt
  rw [BitBuffer.alignZero, BitBuffer.used_appendBits, length_alignmentZeros]
  simp only [Fin.val_zero]; omega

theorem BitBuffer.wf_alignZero (s : BitBuffer) : s.alignZero.wf = true :=
  BitBuffer.wf_of_used_zero s.used_alignZero

theorem BitBuffer.bits_alignZero {s : BitBuffer} (h : s.wf = true) :
    s.alignZero.bits = s.bits ++ alignmentZeros s.used.val := s.bits_appendBits _ h

theorem BitBuffer.bits_writeBits {s : BitBuffer} (v n : Nat) (h : s.wf = true) :
    (s.writeBits v n).bits = s.bits ++ msbFirst v n := s.bits_appendBits _ h

theorem BitBuffer.wf_writeBits {s : BitBuffer} (v n : Nat) (h : s.wf = true) :
    (s.writeBits v n).wf = true := s.wf_appendBits _ h

theorem BitBuffer.bitPos_writeBits {s : BitBuffer} (v n : Nat) (h : s.wf = true) :
    (s.writeBits v n).bitPos = s.bitPos + n := by
  rw [BitBuffer.writeBits, s.bitPos_appendBits _ h, length_msbFirst]

/-- Two buffers with the same bits, both with the invariant, have the same position. -/
theorem BitBuffer.bitPos_eq_of_bits_eq {s t : BitBuffer} (hs : s.wf = true) (ht : t.wf = true)
    (h : s.bits = t.bits) : s.bitPos = t.bitPos := by
  rw [← s.length_bits hs, ← t.length_bits ht, h]

end Sys2Proof.Machine
end

