-- ==== Sys2Proof/Laws/State.lean ====
section
/-! SUPPORT. One lemma per field of State and update of it, so that no proof unfolds a record update. -/

namespace Sys2Proof.Machine


/-! ## The answer: `RES` and the response port -/

@[simp] theorem State.answer_config (s : State) (c : BitVec 8) (r : BitVec 64) : (s.answer c r).config = s.config := rfl
@[simp] theorem State.answer_rbsp (s : State) (c : BitVec 8) (r : BitVec 64) : (s.answer c r).rbsp = s.rbsp := rfl
@[simp] theorem State.answer_phase (s : State) (c : BitVec 8) (r : BitVec 64) : (s.answer c r).phase = s.phase := rfl
@[simp] theorem State.answer_esc (s : State) (c : BitVec 8) (r : BitVec 64) : (s.answer c r).esc = s.esc := rfl
@[simp] theorem State.answer_cfg (s : State) (c : BitVec 8) (r : BitVec 64) : (s.answer c r).cfg = s.cfg := rfl
@[simp] theorem State.answer_frame (s : State) (c : BitVec 8) (r : BitVec 64) : (s.answer c r).frame = s.frame := rfl
@[simp] theorem State.answer_pixY (s : State) (c : BitVec 8) (r : BitVec 64) : (s.answer c r).pixY = s.pixY := rfl
@[simp] theorem State.answer_pixCb (s : State) (c : BitVec 8) (r : BitVec 64) : (s.answer c r).pixCb = s.pixCb := rfl
@[simp] theorem State.answer_pixCr (s : State) (c : BitVec 8) (r : BitVec 64) : (s.answer c r).pixCr = s.pixCr := rfl
@[simp] theorem State.answer_fault (s : State) (c : BitVec 8) (r : BitVec 64) : (s.answer c r).fault = s.fault := rfl
@[simp] theorem State.answer_cause (s : State) (c : BitVec 8) (r : BitVec 64) : (s.answer c r).cause = s.cause := rfl
@[simp] theorem State.answer_res (s : State) (c : BitVec 8) (r : BitVec 64) : (s.answer c r).res = r := rfl
@[simp] theorem State.answer_out (s : State) (c : BitVec 8) (r : BitVec 64) : (s.answer c r).out = s.out := rfl
@[simp] theorem State.answer_response (s : State) (c : BitVec 8) (r : BitVec 64) : (s.answer c r).response = some { status := c, result := r } := rfl
@[simp] theorem State.answer_sinkOk (s : State) (c : BitVec 8) (r : BitVec 64) : (s.answer c r).sinkOk = s.sinkOk := rfl
@[simp] theorem State.answer_input (s : State) (c : BitVec 8) (r : BitVec 64) : (s.answer c r).input = s.input := rfl

/-! ## Fault entry -/

@[simp] theorem State.raised_config (s : State) (c : Cause) : (s.raised c).config = s.config := rfl
@[simp] theorem State.raised_rbsp (s : State) (c : Cause) : (s.raised c).rbsp = s.rbsp := rfl
@[simp] theorem State.raised_phase (s : State) (c : Cause) : (s.raised c).phase = s.phase := rfl
@[simp] theorem State.raised_esc (s : State) (c : Cause) : (s.raised c).esc = s.esc := rfl
@[simp] theorem State.raised_cfg (s : State) (c : Cause) : (s.raised c).cfg = s.cfg := rfl
@[simp] theorem State.raised_frame (s : State) (c : Cause) : (s.raised c).frame = s.frame := rfl
@[simp] theorem State.raised_pixY (s : State) (c : Cause) : (s.raised c).pixY = s.pixY := rfl
@[simp] theorem State.raised_pixCb (s : State) (c : Cause) : (s.raised c).pixCb = s.pixCb := rfl
@[simp] theorem State.raised_pixCr (s : State) (c : Cause) : (s.raised c).pixCr = s.pixCr := rfl
@[simp] theorem State.raised_fault (s : State) (c : Cause) : (s.raised c).fault = true := rfl
@[simp] theorem State.raised_cause (s : State) (c : Cause) : (s.raised c).cause = c.code := rfl
@[simp] theorem State.raised_res (s : State) (c : Cause) : (s.raised c).res = 0#64 := rfl
@[simp] theorem State.raised_out (s : State) (c : Cause) : (s.raised c).out = s.out := rfl
@[simp] theorem State.raised_response (s : State) (c : Cause) : (s.raised c).response = some { status := c.code, result := 0#64 } := rfl
@[simp] theorem State.raised_sinkOk (s : State) (c : Cause) : (s.raised c).sinkOk = s.sinkOk := rfl
@[simp] theorem State.raised_input (s : State) (c : Cause) : (s.raised c).input = s.input := rfl

/-! ## The reset event -/

@[simp] theorem State.afterReset_config (s : State) : s.afterReset.config = s.config := rfl
@[simp] theorem State.afterReset_rbsp (s : State) : s.afterReset.rbsp = State.reset.rbsp := rfl
@[simp] theorem State.afterReset_phase (s : State) : s.afterReset.phase = State.reset.phase := rfl
@[simp] theorem State.afterReset_esc (s : State) : s.afterReset.esc = State.reset.esc := rfl
@[simp] theorem State.afterReset_cfg (s : State) : s.afterReset.cfg = State.reset.cfg := rfl
@[simp] theorem State.afterReset_frame (s : State) : s.afterReset.frame = State.reset.frame := rfl
@[simp] theorem State.afterReset_pixY (s : State) : s.afterReset.pixY = State.reset.pixY := rfl
@[simp] theorem State.afterReset_pixCb (s : State) : s.afterReset.pixCb = State.reset.pixCb := rfl
@[simp] theorem State.afterReset_pixCr (s : State) : s.afterReset.pixCr = State.reset.pixCr := rfl
@[simp] theorem State.afterReset_fault (s : State) : s.afterReset.fault = State.reset.fault := rfl
@[simp] theorem State.afterReset_cause (s : State) : s.afterReset.cause = State.reset.cause := rfl
@[simp] theorem State.afterReset_res (s : State) : s.afterReset.res = State.reset.res := rfl
@[simp] theorem State.afterReset_out (s : State) : s.afterReset.out = s.out := rfl
@[simp] theorem State.afterReset_response (s : State) : s.afterReset.response = State.reset.response := rfl
@[simp] theorem State.afterReset_sinkOk (s : State) : s.afterReset.sinkOk = s.sinkOk := rfl
@[simp] theorem State.afterReset_input (s : State) : s.afterReset.input = s.input := rfl

/-! ## Loading a plane -/

@[simp] theorem State.loadPlane_config (s : State) (p : Plane) (l : List Byte) : (s.loadPlane p l).config = s.config := by cases p <;> rfl
@[simp] theorem State.loadPlane_rbsp (s : State) (p : Plane) (l : List Byte) : (s.loadPlane p l).rbsp = s.rbsp := by cases p <;> rfl
@[simp] theorem State.loadPlane_phase (s : State) (p : Plane) (l : List Byte) : (s.loadPlane p l).phase = s.phase := by cases p <;> rfl
@[simp] theorem State.loadPlane_esc (s : State) (p : Plane) (l : List Byte) : (s.loadPlane p l).esc = s.esc := by cases p <;> rfl
@[simp] theorem State.loadPlane_cfg (s : State) (p : Plane) (l : List Byte) : (s.loadPlane p l).cfg = s.cfg := by cases p <;> rfl
@[simp] theorem State.loadPlane_frame (s : State) (p : Plane) (l : List Byte) : (s.loadPlane p l).frame = s.frame := by cases p <;> rfl
@[simp] theorem State.loadPlane_fault (s : State) (p : Plane) (l : List Byte) : (s.loadPlane p l).fault = s.fault := by cases p <;> rfl
@[simp] theorem State.loadPlane_cause (s : State) (p : Plane) (l : List Byte) : (s.loadPlane p l).cause = s.cause := by cases p <;> rfl
@[simp] theorem State.loadPlane_res (s : State) (p : Plane) (l : List Byte) : (s.loadPlane p l).res = s.res := by cases p <;> rfl
@[simp] theorem State.loadPlane_out (s : State) (p : Plane) (l : List Byte) : (s.loadPlane p l).out = s.out := by cases p <;> rfl
@[simp] theorem State.loadPlane_response (s : State) (p : Plane) (l : List Byte) : (s.loadPlane p l).response = s.response := by cases p <;> rfl
@[simp] theorem State.loadPlane_sinkOk (s : State) (p : Plane) (l : List Byte) : (s.loadPlane p l).sinkOk = s.sinkOk := by cases p <;> rfl
@[simp] theorem State.loadPlane_input (s : State) (p : Plane) (l : List Byte) : (s.loadPlane p l).input = s.input := by cases p <;> rfl

@[simp] theorem State.loadPlane_plane_self (s : State) (p : Plane) (l : List Byte) :
    (s.loadPlane p l).plane p = Memory.ofBytes l := by cases p <;> rfl

theorem State.loadPlane_plane_other (s : State) {p q : Plane} (l : List Byte) (h : q ≠ p) :
    (s.loadPlane p l).plane q = s.plane q := by
  cases p <;> cases q <;> first | rfl | exact absurd rfl h

@[simp] theorem State.answer_plane (s : State) (c : BitVec 8) (r : BitVec 64) (p : Plane) :
    (s.answer c r).plane p = s.plane p := by cases p <;> rfl

@[simp] theorem State.raised_plane (s : State) (c : Cause) (p : Plane) :
    (s.raised c).plane p = s.plane p := by cases p <;> rfl

@[simp] theorem State.afterReset_plane (s : State) (p : Plane) :
    s.afterReset.plane p = Memory.empty := by cases p <;> rfl

/-! ## The command port -/

@[simp] theorem State.present_config (s : State) (w : CommandWord) : (s.present w).config = s.config := rfl
@[simp] theorem State.present_rbsp (s : State) (w : CommandWord) : (s.present w).rbsp = s.rbsp := rfl
@[simp] theorem State.present_phase (s : State) (w : CommandWord) : (s.present w).phase = s.phase := rfl
@[simp] theorem State.present_esc (s : State) (w : CommandWord) : (s.present w).esc = s.esc := rfl
@[simp] theorem State.present_cfg (s : State) (w : CommandWord) : (s.present w).cfg = s.cfg := rfl
@[simp] theorem State.present_frame (s : State) (w : CommandWord) : (s.present w).frame = s.frame := rfl
@[simp] theorem State.present_pixY (s : State) (w : CommandWord) : (s.present w).pixY = s.pixY := rfl
@[simp] theorem State.present_pixCb (s : State) (w : CommandWord) : (s.present w).pixCb = s.pixCb := rfl
@[simp] theorem State.present_pixCr (s : State) (w : CommandWord) : (s.present w).pixCr = s.pixCr := rfl
@[simp] theorem State.present_fault (s : State) (w : CommandWord) : (s.present w).fault = s.fault := rfl
@[simp] theorem State.present_cause (s : State) (w : CommandWord) : (s.present w).cause = s.cause := rfl
@[simp] theorem State.present_res (s : State) (w : CommandWord) : (s.present w).res = s.res := rfl
@[simp] theorem State.present_out (s : State) (w : CommandWord) : (s.present w).out = s.out := rfl
@[simp] theorem State.present_response (s : State) (w : CommandWord) : (s.present w).response = s.response := rfl
@[simp] theorem State.present_sinkOk (s : State) (w : CommandWord) : (s.present w).sinkOk = s.sinkOk := rfl
@[simp] theorem State.present_input (s : State) (w : CommandWord) : (s.present w).input = HostEvent.command w :: s.input := rfl

theorem State.takeInput_nil {s : State} (h : s.input = []) : s.takeInput = none := by
  simp [State.takeInput, h]

theorem State.takeInput_cons {s : State} {e : HostEvent} {rest : List HostEvent}
    (h : s.input = e :: rest) : s.takeInput = some (e, { s with input := rest }) := by
  simp [State.takeInput, h]

@[simp] theorem State.takeInput_present (s : State) (w : CommandWord) :
    (s.present w).takeInput = some (.command w, s) := rfl

end Sys2Proof.Machine
end

