-- ==== Sys2Proof/Laws/Ops.lean ====
section
/-! SUPPORT. What each shared operation can do, once: answering, faulting, the faulted state, the
sequence check of the rasterizer and the writing of macroblocks. -/

namespace Sys2Proof.Machine

@[simp] theorem respond_eq (r : BitVec 64) (s : State) : respond r s = .next (s.answer 0#8 r) := rfl

@[simp] theorem raise_eq (c : Cause) (s : State) : raise c s = .next (s.raised c) := rfl

@[simp] theorem refuseFaulted_eq (s : State) : refuseFaulted s = .next (s.answer s.cause 0#64) := rfl

/-- While `FAULT = 1` a command is refused whatever its body (60_exceptions.md R255). -/
theorem command_of_fault {s : State} (body : Result) (h : s.fault = true) :
    command s body = .next (s.answer s.cause 0#64) := by simp [command, h]

/-- While `FAULT = 0` a command is its body. -/
@[simp] theorem command_of_ok {s : State} (body : Result) (h : s.fault = false) :
    command s body = body := by simp [command, h]

/-- All a command can do: the answer of the faulted state, or its body. -/
theorem command_next {s t : State} {body : Result} (h : command s body = .next t) :
    (s.fault = true ∧ t = s.answer s.cause 0#64) ∨ (s.fault = false ∧ body = .next t) := by
  cases hf : s.fault with
  | true => rw [command_of_fault body hf] at h; exact .inl ⟨rfl, by injection h with h; exact h.symm⟩
  | false => rw [command_of_ok body hf] at h; exact .inr ⟨rfl, h⟩

/-- All the rasterizer's sequence check can do (60_exceptions.md R257). -/
theorem withFrame_next {s t : State} {body : FrameSpec → Result} (h : withFrame s body = .next t) :
    t = s.raised .sequenceError ∨
      ∃ c f, s.cfg = some c ∧ s.frame = some f ∧ s.phase = .rbspOpen ∧ body c = .next t := by
  unfold withFrame at h
  split at h
  · exact .inl (by simpa using h.symm)
  · next c hc =>
    split at h
    · exact .inl (by simpa using h.symm)
    · next hn =>
      simp only [not_or, State.frameValid, Bool.not_eq_false, ne_eq, not_not] at hn
      obtain ⟨f, hf⟩ := Option.isSome_iff_exists.mp hn.1
      exact .inr ⟨c, f, hc, hf, hn.2, h⟩

/-- The check passes where its three conditions hold. -/
theorem withFrame_of_ok {s : State} {body : FrameSpec → Result} {c : FrameSpec} {f : FrameDims}
    (hc : s.cfg = some c) (hf : s.frame = some f) (hp : s.phase = .rbspOpen) :
    withFrame s body = body c := by
  simp [withFrame, hc, hf, hp, State.frameValid]

/-- All writing macroblocks can do. -/
theorem writeMacroblocks_next {s t : State} {c : FrameSpec} {m : Nat}
    {mbs : Option (List (List Nat))} (h : writeMacroblocks s c m mbs = .next t) :
    ∃ l, mbs = some l ∧
      (t = s.raised .bitDepthOutOfRange ∨ t = s.raised .capacityExceeded ∨
        (l.all (samplesInRange c.depth) = true ∧ s.bitsFit m = true ∧
          t = State.answer { s with rbsp := l.foldl (fun b v => b.mbPcm c.depth v) s.rbsp } 0#8 0#64)) := by
  unfold writeMacroblocks at h
  split at h
  · cases h
  · next l =>
    refine ⟨l, rfl, ?_⟩
    split at h
    · exact .inl (by simpa using h.symm)
    · next hr =>
      split at h
      · exact .inr (.inl (by simpa using h.symm))
      · next hb => exact .inr (.inr ⟨by simpa using hr, by simpa using hb, by simpa using h.symm⟩)

/-! ## Partial functions over a list -/

theorem collect_some_iff {α β : Type} {f : α → Option β} {l : List α} {r : List β} :
    collect f l = some r ↔ l.map f = r.map some := by
  induction l generalizing r with
  | nil => cases r <;> simp [collect]
  | cons a l ih =>
    cases hf : f a with
    | none => cases r <;> simp [collect, hf]
    | some b =>
      cases hc : collect f l with
      | none =>
        cases r with
        | nil => simp [collect, hf, hc]
        | cons x xs =>
          have : ¬ l.map f = xs.map some := fun hx => by rw [ih.mpr hx] at hc; cases hc
          simp [collect, hf, hc, this]
      | some bs =>
        cases r with
        | nil => simp [collect, hf, hc]
        | cons x xs =>
          have hbs := ih.mp hc
          simp only [collect, hf, hc, List.map_cons, List.cons.injEq, Option.some.injEq]
          constructor
          · rintro ⟨rfl, rfl⟩; exact ⟨rfl, hbs⟩
          · rintro ⟨rfl, hx⟩; exact ⟨rfl, Option.some.inj (hc.symm.trans (ih.mpr hx))⟩

theorem collect_length {α β : Type} {f : α → Option β} {l : List α} {r : List β}
    (h : collect f l = some r) : r.length = l.length := by
  simpa using (congrArg List.length (collect_some_iff.mp h)).symm

/-- A partial function that is defined on a whole list is collected. -/
theorem collect_of_forall {α β : Type} {f : α → Option β} {g : α → β} {l : List α}
    (h : ∀ a ∈ l, f a = some (g a)) : collect f l = some (l.map g) := by
  rw [collect_some_iff, List.map_map]
  exact List.map_congr_left h

end Sys2Proof.Machine
end

