-- ==== Sys2Proof/Laws/Commands.lean ====
section
/-! SUPPORT. What each command can do, once: if it answers a next state, the faulted state answered, or
a fault was taken, or the command was performed, with the conditions and the state it leaves. -/

namespace Sys2Proof.Machine

/-- The three things any command can do: `performed` is the command's own effect with its conditions. -/
def Outcomes (s t : State) (performed : Prop) : Prop :=
  (s.fault = true ∧ t = s.answer s.cause 0#64) ∨
    (s.fault = false ∧ ((∃ c, t = s.raised c) ∨ performed))

/-- A body that only faults or performs gives a command its outcomes. -/
theorem outcomes_of_body {s t : State} {body : Result} {performed : Prop}
    (h : command s body = .next t) (hb : body = .next t → (∃ c, t = s.raised c) ∨ performed) :
    Outcomes s t performed := by
  rcases command_next h with hf | ⟨hf, hbody⟩
  · exact .inl hf
  · exact .inr ⟨hf, hb hbody⟩

/-- A guarded fault: either it was taken, or its condition fails and the rest ran. -/
theorem raise_or {s t : State} {p : Prop} [Decidable p] {c : Cause} {rest : Result}
    (h : (if p then raise c s else rest) = .next t) :
    (∃ c, t = s.raised c) ∨ (¬ p ∧ rest = .next t) := by
  split at h
  · exact .inl ⟨c, by simpa using h.symm⟩
  · next hp => exact .inr ⟨hp, h⟩

theorem respond_inj {s t : State} {r : BitVec 64} (h : respond r s = .next t) : t = s.answer 0#8 r := by
  simpa using h.symm

theorem execCfg_next {w h : BitVec 16} {d c : BitVec 8} {s t : State}
    (he : execCfg w h d c s = .next t) :
    Outcomes s t (s.cfg = none ∧ ∃ d' c', depthOf d = some d' ∧ chromaOf c = some c' ∧
      w ≠ 0#16 ∧ h ≠ 0#16 ∧ ¬ (d' = .twelve ∧ c' = .yuv420) ∧
      ¬ (c' = .yuv420 ∧ (w.toNat % 2 = 1 ∨ h.toNat % 2 = 1)) ∧
      t = State.answer { s with cfg := some ⟨w, h, d', c'⟩ } 0#8 0#64) := by
  refine outcomes_of_body he fun hb => ?_
  rcases raise_or hb with hr | ⟨h1, hb⟩
  · exact .inl hr
  rcases raise_or hb with hr | ⟨h2, hb⟩
  · exact .inl hr
  split at hb
  · next d' c' hd hc =>
    rcases raise_or hb with hr | ⟨h3, hb⟩
    · exact .inl hr
    rcases raise_or hb with hr | ⟨h4, hb⟩
    · exact .inl hr
    rw [not_or] at h2
    exact .inr ⟨by simpa [State.cfgValid] using h1, d', c', hd, hc, h2.1, h2.2, h3, h4, respond_inj hb⟩
  · exact .inl ⟨_, by simpa using hb.symm⟩

theorem execFrame_next {fw fh : BitVec 16} {s t : State} (he : execFrame fw fh s = .next t) :
    Outcomes s t (∃ c, s.cfg = some c ∧ fw = c.width ∧ fh = c.height ∧
      (∀ p, s.planeMatches c p = true) ∧
      t = State.answer { s with frame := some ⟨fw, fh⟩ } 0#8 0#64) := by
  refine outcomes_of_body he fun hb => ?_
  split at hb
  · exact .inl ⟨_, by simpa using hb.symm⟩
  · next c hc =>
    rcases raise_or hb with hr | ⟨h1, hb⟩
    · exact .inl hr
    rcases raise_or hb with hr | ⟨h2, hb⟩
    · exact .inl hr
    rcases raise_or hb with hr | ⟨h3, hb⟩
    · exact .inl hr
    simp only [ne_eq, not_or, not_not] at h1 h2 h3
    refine .inr ⟨c, hc, h1.1, h1.2, ?_, respond_inj hb⟩
    intro p
    cases p
    · exact h2
    · exact h3.1
    · exact h3.2

theorem execU_next {n : BitVec 8} {v : BitVec 64} {s t : State} (he : execU n v s = .next t) :
    Outcomes s t (n.toNat ≤ 64 ∧ s.phase = .rbspOpen ∧ v.toNat < 2 ^ n.toNat ∧
      s.bitsFit n.toNat = true ∧
      t = State.answer { s with rbsp := s.rbsp.writeBits v.toNat n.toNat } 0#8 0#64) := by
  refine outcomes_of_body he fun hb => ?_
  rcases raise_or hb with hr | ⟨h1, hb⟩
  · exact .inl hr
  rcases raise_or hb with hr | ⟨h2, hb⟩
  · exact .inl hr
  rcases raise_or hb with hr | ⟨h3, hb⟩
  · exact .inl hr
  rcases raise_or hb with hr | ⟨h4, hb⟩
  · exact .inl hr
  exact .inr ⟨Nat.le_of_not_lt h1, not_not.mp h2, Nat.lt_of_not_le h3, not_not.mp h4, respond_inj hb⟩

theorem appendCode_next {k : Nat} {s t : State} (hb : appendCode k s = .next t) :
    (∃ c, t = s.raised c) ∨ (s.phase = .rbspOpen ∧ k ≤ 2 ^ 32 - 2 ∧ s.bitsFit (ueLength k) = true ∧
      t = State.answer { s with rbsp := s.rbsp.appendBits (ueBits k) } 0#8 0#64) := by
  rcases raise_or hb with hr | ⟨h2, hb⟩
  · exact .inl hr
  rcases raise_or hb with hr | ⟨h3, hb⟩
  · exact .inl hr
  rcases raise_or hb with hr | ⟨h4, hb⟩
  · exact .inl hr
  exact .inr ⟨not_not.mp h2, Nat.le_of_not_lt h3, not_not.mp h4, respond_inj hb⟩

theorem execUe_next {v : BitVec 32} {s t : State} (he : execUe v s = .next t) :
    Outcomes s t (s.phase = .rbspOpen ∧ v.toNat ≤ 2 ^ 32 - 2 ∧ s.bitsFit (ueLength v.toNat) = true ∧
      t = State.answer { s with rbsp := s.rbsp.appendBits (ueBits v.toNat) } 0#8 0#64) :=
  outcomes_of_body he appendCode_next

theorem execSe_next {v : BitVec 32} {s t : State} (he : execSe v s = .next t) :
    Outcomes s t (s.phase = .rbspOpen ∧ seCodeNum v.toInt ≤ 2 ^ 32 - 2 ∧
      s.bitsFit (ueLength (seCodeNum v.toInt)) = true ∧
      t = State.answer { s with rbsp := s.rbsp.appendBits (seBits v.toInt) } 0#8 0#64) :=
  outcomes_of_body he appendCode_next

theorem execAlign0_next {s t : State} (he : execAlign0 s = .next t) :
    Outcomes s t (s.phase = .rbspOpen ∧
      t = State.answer { s with rbsp := s.rbsp.alignZero } 0#8 0#64) := by
  refine outcomes_of_body he fun hb => ?_
  rcases raise_or hb with hr | ⟨h1, hb⟩
  · exact .inl hr
  exact .inr ⟨not_not.mp h1, respond_inj hb⟩

theorem execBitpos_next {s t : State} (he : execBitpos s = .next t) :
    Outcomes s t (t = s.answer 0#8 (countResult s.rbsp.bitPos)) :=
  outcomes_of_body he fun hb => .inr (respond_inj hb)

theorem execAligned_next {s t : State} (he : execAligned s = .next t) :
    Outcomes s t (t = s.answer 0#8 (if s.rbsp.aligned then 1#64 else 0#64)) :=
  outcomes_of_body he fun hb => .inr (respond_inj hb)

theorem execTrail_next {s t : State} (he : execTrail s = .next t) :
    Outcomes s t (s.phase = .rbspOpen ∧ s.trailFits = true ∧
      t = State.answer { s with rbsp := (s.rbsp.appendBits [true]).alignZero, phase := .trailed }
        0#8 0#64) := by
  refine outcomes_of_body he fun hb => ?_
  rcases raise_or hb with hr | ⟨h1, hb⟩
  · exact .inl hr
  rcases raise_or hb with hr | ⟨h2, hb⟩
  · exact .inl hr
  exact .inr ⟨not_not.mp h1, not_not.mp h2, respond_inj hb⟩

theorem execEpb_next {s t : State} (he : execEpb s = .next t) :
    Outcomes s t (s.phase = .trailed ∧ s.escapedFits (escape s.rbsp.buf).length = true ∧
      t = State.answer { s with esc := escape s.rbsp.buf, phase := .escaped } 0#8
        (countResult ((escape s.rbsp.buf).length - s.rbsp.buf.length))) := by
  refine outcomes_of_body he fun hb => ?_
  rcases raise_or hb with hr | ⟨h1, hb⟩
  · exact .inl hr
  rcases raise_or hb with hr | ⟨h2, hb⟩
  · exact .inl hr
  exact .inr ⟨not_not.mp h1, not_not.mp h2, respond_inj hb⟩

theorem execNal_next {ref : BitVec 2} {ty : BitVec 5} {sc : Bool} {s t : State}
    (he : execNal ref ty sc s = .next t) :
    Outcomes s t (nalTypeLegal ty = true ∧ s.phase = .escaped ∧ ¬ (ty = 5#5 ∧ ref = 0#2) ∧
      s.sinkOk = true ∧
      t = State.answer { s with
        out := s.out ++ nalUnit ref ty sc s.esc, rbsp := BitBuffer.empty, esc := [],
        phase := .rbspOpen } 0#8 (countResult (nalUnit ref ty sc s.esc).length)) := by
  refine outcomes_of_body he fun hb => ?_
  rcases raise_or hb with hr | ⟨h1, hb⟩
  · exact .inl hr
  rcases raise_or hb with hr | ⟨h2, hb⟩
  · exact .inl hr
  rcases raise_or hb with hr | ⟨h3, hb⟩
  · exact .inl hr
  rcases raise_or hb with hr | ⟨h4, hb⟩
  · exact .inl hr
  exact .inr ⟨not_not.mp h1, not_not.mp h2, h3, not_not.mp h4, respond_inj hb⟩

/-- Writing macroblocks, as the rasterizer's two commands do it: a fault, or the samples were read, are
in range, fit, and are appended. -/
theorem macroblocks_next {s t : State} {c : FrameSpec} {m : Nat} {mbs : Option (List (List Nat))}
    (hb : writeMacroblocks s c m mbs = .next t) :
    (∃ k, t = s.raised k) ∨ (∃ l, mbs = some l ∧ l.all (samplesInRange c.depth) = true ∧
      s.bitsFit m = true ∧
      t = State.answer { s with rbsp := l.foldl (fun b v => b.mbPcm c.depth v) s.rbsp } 0#8 0#64) := by
  obtain ⟨l, hl, h | h | h⟩ := writeMacroblocks_next hb
  · exact .inl ⟨_, h⟩
  · exact .inl ⟨_, h⟩
  · exact .inr ⟨l, hl, h⟩

theorem execMbpcm_next {x y : BitVec 16} {s t : State} (he : execMbpcm x y s = .next t) :
    Outcomes s t (∃ c f l, s.cfg = some c ∧ s.frame = some f ∧ s.phase = .rbspOpen ∧
      x.toNat < c.mbw ∧ y.toNat < c.mbh ∧ s.mbSamples c (x.toNat, y.toNat) = some l ∧
      samplesInRange c.depth l = true ∧ s.bitsFit (c.mbBits s.rbsp.used.val) = true ∧
      t = State.answer { s with rbsp := s.rbsp.mbPcm c.depth l } 0#8 0#64) := by
  refine outcomes_of_body he fun hb => ?_
  rcases withFrame_next hb with h | ⟨c, f, hc, hf, hp, hb⟩
  · exact .inl ⟨_, h⟩
  rcases raise_or hb with hr | ⟨h1, hb⟩
  · exact .inl hr
  rcases macroblocks_next hb with h | ⟨ls, hls, hr, hfit, ht⟩
  · exact .inl h
  rw [not_or, Nat.not_le, Nat.not_le] at h1
  cases hm : s.mbSamples c (x.toNat, y.toNat) with
  | none => simp [collect, hm] at hls
  | some l =>
    obtain rfl : ls = [l] := by simpa [collect, hm] using hls.symm
    exact .inr ⟨c, f, l, hc, hf, hp, h1.1, h1.2, hm, by simpa using hr, hfit, ht⟩

theorem execPicpcm_next {s t : State} (he : execPicpcm s = .next t) :
    Outcomes s t (∃ c f ls, s.cfg = some c ∧ s.frame = some f ∧ s.phase = .rbspOpen ∧
      collect (s.mbSamples c) c.mbOrder = some ls ∧ ls.all (samplesInRange c.depth) = true ∧
      s.bitsFit (c.picBits s.rbsp.used.val) = true ∧
      t = State.answer { s with rbsp := ls.foldl (fun b v => b.mbPcm c.depth v) s.rbsp } 0#8 0#64) := by
  refine outcomes_of_body he fun hb => ?_
  rcases withFrame_next hb with h | ⟨c, f, hc, hf, hp, hb⟩
  · exact .inl ⟨_, h⟩
  rcases macroblocks_next hb with h | ⟨ls, hls, hr, hfit, ht⟩
  · exact .inl h
  exact .inr ⟨c, f, ls, hc, hf, hp, hls, hr, hfit, ht⟩

end Sys2Proof.Machine
end

