-- ==== Sys2Proof/Laws/Encoding.lean ====
section
/-! SUPPORT. The fields of a word made of fields, and a word as made of its fields (30_encoding.md R70). -/

namespace Sys2Proof

/-- Bit `i` of a word made of fields, by the field it lies in. -/
theorem getLsbD_commandWord (op arg : BitVec 8) (val : BitVec 64) (i : Nat) :
    (commandWord op arg val).getLsbD i =
      if i < 64 then val.getLsbD i else if i < 72 then arg.getLsbD (i - 64) else op.getLsbD (i - 72) := by
  have h := BitVec.getLsbD_append (x := op) (y := arg ++ val) (i := i)
  have h' := BitVec.getLsbD_append (x := arg) (y := val) (i := i)
  have hw : (commandWord op arg val).getLsbD i = (op ++ (arg ++ val)).getLsbD i := rfl
  rw [hw, h, h']
  by_cases h1 : i < 64
  · simp [h1, show i < 72 by omega]
  · simp [h1]

@[simp] theorem opField_commandWord (op arg : BitVec 8) (val : BitVec 64) :
    opField (commandWord op arg val) = op := by
  apply BitVec.eq_of_getLsbD_eq
  intro i hi
  simp [opField, getLsbD_commandWord, show ¬ 72 + i < 64 by omega, hi]

@[simp] theorem argField_commandWord (op arg : BitVec 8) (val : BitVec 64) :
    argField (commandWord op arg val) = arg := by
  apply BitVec.eq_of_getLsbD_eq
  intro i hi
  simp [argField, getLsbD_commandWord, show 64 + i < 72 by omega, hi]

@[simp] theorem valField_commandWord (op arg : BitVec 8) (val : BitVec 64) :
    valField (commandWord op arg val) = val := by
  apply BitVec.eq_of_getLsbD_eq
  intro i hi
  simp [valField, getLsbD_commandWord, hi]

/-- A word is made of its three fields: no bit of it is outside them. -/
theorem commandWord_fields (w : CommandWord) :
    commandWord (opField w) (argField w) (valField w) = w := by
  apply BitVec.eq_of_getLsbD_eq
  intro i hi
  rw [getLsbD_commandWord]
  simp only [opField, argField, valField, BitVec.getLsbD_extractLsb']
  by_cases h1 : i < 64
  · simp [h1]
  · by_cases h2 : i < 72
    · simp [h1, h2, show i - 64 < 8 by omega, show 64 + (i - 64) = i by omega]
    · simp [h1, h2, show i - 72 < 8 by omega, show 72 + (i - 72) = i by omega]

/-! ## Fields of joined operands -/

/-- A field that lies in the low part of a joined value. -/
theorem extract_append_low {n m : Nat} (a : BitVec n) (b : BitVec m) (start len : Nat)
    (h : start + len ≤ m) : (a ++ b).extractLsb' start len = b.extractLsb' start len := by
  apply BitVec.eq_of_getLsbD_eq
  intro i hi
  simp [BitVec.getLsbD_append, hi, show start + i < m by omega]

/-- A field that lies in the high part of a joined value. -/
theorem extract_append_high {n m : Nat} (a : BitVec n) (b : BitVec m) (start len : Nat)
    (h : m ≤ start) : (a ++ b).extractLsb' start len = a.extractLsb' (start - m) len := by
  apply BitVec.eq_of_getLsbD_eq
  intro i hi
  simp [BitVec.getLsbD_append, hi, show ¬ start + i < m by omega,
    show start + i - m = start - m + i by omega]

/-- The whole of a value is a field of it. -/
theorem extract_whole {n : Nat} (a : BitVec n) : a.extractLsb' 0 n = a := by
  apply BitVec.eq_of_getLsbD_eq
  intro i hi
  simp [hi]

end Sys2Proof
end

