-- ==== Sys2Proof/Laws/Memory.lean ====
section
/-! SUPPORT. Frame memory: every operation keeps the canonical form, and a loaded plane reads back. -/

namespace Sys2Proof.Machine

theorem cellsWf_mono {a b len : Nat} (h : a ≤ b) {cells : List Host.Cell}
    (hw : cellsWf b len cells = true) : cellsWf a len cells = true := by
  cases cells with
  | nil => rfl
  | cons c rest =>
    obtain ⟨k, x⟩ := c
    simp only [cellsWf, Bool.and_eq_true, decide_eq_true_eq] at hw ⊢
    exact ⟨⟨⟨h.trans hw.1.1.1, hw.1.1.2⟩, hw.1.2⟩, hw.2⟩

theorem cellsWf_cellsFrom (bytes : List Byte) (a : Nat) :
    cellsWf a (a + bytes.length) (cellsFrom a bytes) = true := by
  induction bytes generalizing a with
  | nil => rfl
  | cons b rest ih =>
    have h := ih (a + 1)
    rw [show a + 1 + rest.length = a + (b :: rest).length by simp; omega] at h
    by_cases hb : b = Memory.unlisted
    · simpa [cellsFrom, hb] using cellsWf_mono (Nat.le_succ a) h
    · simp [cellsFrom, hb, cellsWf]; simpa [Nat.add_comm, Nat.add_left_comm] using h

/-- A loaded plane is in canonical form. -/
theorem Memory.wf_ofBytes (bytes : List Byte) : (Memory.ofBytes bytes).wf = true := by
  simpa [Memory.wf, Memory.ofBytes] using cellsWf_cellsFrom bytes 0

theorem Memory.wf_empty : Memory.empty.wf = true := rfl

/-- The host's load keeps the canonical form of every plane. -/
theorem State.loadPlane_wf {s : State} (p : Plane) (bytes : List Byte)
    (h : ∀ q, (s.plane q).wf = true) (q : Plane) : ((s.loadPlane p bytes).plane q).wf = true := by
  cases p <;> cases q <;>
    first | exact Memory.wf_ofBytes bytes | exact h .y | exact h .cb | exact h .cr

theorem lookupCell_of_lt {a len : Nat} {cells : List Host.Cell} {k : Nat}
    (h : cellsWf k len cells = true) (ha : a < k) : lookupCell cells a = Memory.unlisted := by
  cases cells with
  | nil => rfl
  | cons c rest =>
    obtain ⟨j, x⟩ := c
    simp only [cellsWf, Bool.and_eq_true, decide_eq_true_eq] at h
    have hj : a < j := lt_of_lt_of_le ha h.1.1.1
    simp [lookupCell, hj, Nat.ne_of_gt hj]

theorem lookupCell_cellsFrom (bytes : List Byte) (a i : Nat) (h : i < bytes.length) :
    lookupCell (cellsFrom a bytes) (a + i) = bytes[i] := by
  induction bytes generalizing a i with
  | nil => simp at h
  | cons b rest ih =>
    cases i with
    | zero =>
      by_cases hb : b = Memory.unlisted
      · simpa [cellsFrom, hb] using lookupCell_of_lt (cellsWf_cellsFrom rest (a + 1)) (Nat.lt_succ_self a)
      · simp [cellsFrom, hb, lookupCell]
    | succ i =>
      have hi := ih (a + 1) i (by simpa using h)
      rw [show a + 1 + i = a + (i + 1) by omega] at hi
      by_cases hb : b = Memory.unlisted
      · simpa [cellsFrom, hb] using hi
      · simpa [cellsFrom, hb, lookupCell] using hi

/-- Reading a loaded plane gives the byte the host put there, and none past its end. -/
theorem Memory.read_ofBytes (bytes : List Byte) (a : Nat) :
    (Memory.ofBytes bytes).read a = bytes[a]? := by
  by_cases h : a < bytes.length
  · have := lookupCell_cellsFrom bytes 0 a h
    simp only [Nat.zero_add] at this
    simp [Memory.read, Memory.ofBytes, h, this]
  · simp [Memory.read, Memory.ofBytes, h]

/-- A read answers exactly below the plane's length (20_memory.md R40). -/
theorem Memory.read_isSome (m : Memory) (a : Nat) : (m.read a).isSome = decide (a < m.len) := by
  by_cases h : a < m.len <;> simp [Memory.read, h]

/-- Two planes in canonical form that read alike everywhere are equal data. -/
theorem cells_ext {a len : Nat} {c d : List Host.Cell} (hc : cellsWf a len c = true)
    (hd : cellsWf a len d = true) (h : ∀ k, lookupCell c k = lookupCell d k) : c = d := by
  induction c generalizing a d with
  | nil =>
    cases d with
    | nil => rfl
    | cons e rest =>
      obtain ⟨k, x⟩ := e
      simp only [cellsWf, Bool.and_eq_true, decide_eq_true_eq, bne_iff_ne] at hd
      have := h k
      simp only [lookupCell, if_true] at this
      exact absurd this.symm hd.1.2
  | cons e rest ih =>
    obtain ⟨k, x⟩ := e
    cases d with
    | nil =>
      simp only [cellsWf, Bool.and_eq_true, decide_eq_true_eq, bne_iff_ne] at hc
      have := h k
      simp only [lookupCell, if_true] at this
      exact absurd this hc.1.2
    | cons f rest' =>
      obtain ⟨j, y⟩ := f
      have hc' := hc
      have hd' := hd
      simp only [cellsWf, Bool.and_eq_true, decide_eq_true_eq, bne_iff_ne] at hc hd
      have hkj : k = j := by
        rcases Nat.lt_trichotomy k j with hlt | heq | hgt
        · have := h k
          simp only [lookupCell, if_true, Nat.ne_of_gt hlt, if_false, hlt] at this
          exact absurd this hc.1.2
        · exact heq
        · have := h j
          simp only [lookupCell, if_true, Nat.ne_of_gt hgt, if_false, hgt] at this
          exact absurd this.symm hd.1.2
      subst hkj
      have hxy : x = y := by simpa [lookupCell] using h k
      subst hxy
      have hrest : rest = rest' := by
        refine ih hc.2 hd.2 fun i => ?_
        by_cases hi : i ≤ k
        · rw [lookupCell_of_lt hc.2 (Nat.lt_succ_of_le hi), lookupCell_of_lt hd.2 (Nat.lt_succ_of_le hi)]
        · have := h i
          have hne : k ≠ i := by omega
          have hnlt : ¬ i < k := by omega
          simpa [lookupCell, hne, hnlt] using this
      rw [hrest]

theorem lookupCell_ge {a len k : Nat} {cells : List Host.Cell} (h : cellsWf a len cells = true)
    (hk : len ≤ k) : lookupCell cells k = Memory.unlisted := by
  induction cells generalizing a with
  | nil => rfl
  | cons c rest ih =>
    obtain ⟨j, x⟩ := c
    simp only [cellsWf, Bool.and_eq_true, decide_eq_true_eq] at h
    have hne : j ≠ k := by omega
    have hnlt : ¬ k < j := by omega
    simpa [lookupCell, hne, hnlt] using ih h.2

theorem Memory.ext_of_read {m n : Memory} (hm : m.wf = true) (hn : n.wf = true)
    (hl : m.len = n.len) (h : ∀ a, m.read a = n.read a) : m = n := by
  obtain ⟨len, c⟩ := m
  obtain ⟨len', d⟩ := n
  obtain rfl : len = len' := hl
  congr 1
  refine cells_ext hm hn fun k => ?_
  by_cases hk : k < len
  · simpa [Memory.read, hk] using h k
  · rw [lookupCell_ge hm (Nat.le_of_not_lt hk), lookupCell_ge hn (Nat.le_of_not_lt hk)]

end Sys2Proof.Machine
end

