-- ==== Sys2Proof/Laws/PerInstr.lean ====
section
/-! SUPPORT. Per-instruction statements: the word of every well-formed command matches its row of
spec/opcode_table.json. -/

namespace Sys2Proof.Laws.TableRow

/-- The encoded word agrees with the row's fixed bits: `word &&& mask = match`. -/
def Statement (i : Instr) : Prop :=
  i.wellFormed = true → encode i &&& i.tableMask = i.tableMatch

/-- Masking a word made of fields masks each field. -/
theorem commandWord_and (op arg op' arg' : BitVec 8) (val val' : BitVec 64) :
    commandWord op arg val &&& commandWord op' arg' val' =
      commandWord (op &&& op') (arg &&& arg') (val &&& val') := by
  apply BitVec.eq_of_getLsbD_eq
  intro i _
  rw [BitVec.getLsbD_and, getLsbD_commandWord, getLsbD_commandWord, getLsbD_commandWord]
  split
  · simp
  · split <;> simp

/-- The low bits of a zero-extended operand are outside a mask that covers only the extension. -/
theorem high_mask {n k : Nat} (v : BitVec k) :
    (0#n ++ v) &&& (BitVec.allOnes n ++ 0#k) = 0#(n + k) := by
  apply BitVec.eq_of_getLsbD_eq
  intro i _
  simp only [BitVec.getLsbD_and, BitVec.getLsbD_append]
  split <;> simp

theorem val_mask_32 (v : BitVec 32) : (0#32 ++ v) &&& 0xFFFFFFFF00000000#64 = 0#64 :=
  high_mask (n := 32) v

theorem cfg (w h : BitVec 16) (d c : BitVec 8) : Statement (.cfg w h d c) := fun _ => by
  have := high_mask (n := 16) (c ++ (d ++ (h ++ w)))
  exact (commandWord_and 0x01#8 0#8 0xFF#8 0xFF#8 _ 0xFFFF000000000000#64).trans
    (congrArg (commandWord 0x01#8 0#8) this)

theorem frame (a b : BitVec 16) : Statement (.frame a b) := fun _ =>
  (commandWord_and 0x02#8 0#8 0xFF#8 0xFF#8 _ 0xFFFFFFFF00000000#64).trans
    (congrArg (commandWord 0x02#8 0#8) (val_mask_32 (b ++ a)))

theorem arg_bit7_of_le (n : BitVec 8) (h : n.toNat ≤ 64) : n &&& 0x80#8 = 0#8 := by
  revert h; revert n; decide +kernel

theorem u (n : BitVec 8) (v : BitVec 64) : Statement (.u n v) := fun hw =>
  (commandWord_and 0x10#8 n 0xFF#8 0x80#8 v 0#64).trans (by
    rw [arg_bit7_of_le n (by simpa [Instr.wellFormed] using hw), BitVec.and_zero]; rfl)

theorem ue (v : BitVec 32) : Statement (.ue v) := fun _ =>
  (commandWord_and 0x11#8 0#8 0xFF#8 0xFF#8 _ 0xFFFFFFFF00000000#64).trans
    (congrArg (commandWord 0x11#8 0#8) (val_mask_32 v))

theorem se (v : BitVec 32) : Statement (.se v) := fun _ =>
  (commandWord_and 0x12#8 0#8 0xFF#8 0xFF#8 _ 0xFFFFFFFF00000000#64).trans
    (congrArg (commandWord 0x12#8 0#8) (val_mask_32 v))

theorem align0 : Statement .align0 := fun _ => by decide

theorem bitpos : Statement .bitpos := fun _ => by decide

theorem aligned : Statement .aligned := fun _ => by decide

theorem trail : Statement .trail := fun _ => by decide

theorem epb : Statement .epb := fun _ => by decide

theorem nal (r : BitVec 2) (t : BitVec 5) (sc : Bool) : Statement (.nal r t sc) := fun _ =>
  (commandWord_and 0x30#8 (0#1 ++ (r ++ t)) 0xFF#8 0x80#8 (0#63 ++ BitVec.ofBool sc)
    0xFFFFFFFFFFFFFFFE#64).trans (by
      have h1 : (0#1 ++ (r ++ t)) &&& 0x80#8 = 0#8 := high_mask (n := 1) (r ++ t)
      have h2 : (0#63 ++ BitVec.ofBool sc) &&& 0xFFFFFFFFFFFFFFFE#64 = 0#64 :=
        high_mask (n := 63) (BitVec.ofBool sc)
      rw [h1, h2]; rfl)

theorem mbpcm (a b : BitVec 16) : Statement (.mbpcm a b) := fun _ =>
  (commandWord_and 0x40#8 0#8 0xFF#8 0xFF#8 _ 0xFFFFFFFF00000000#64).trans
    (congrArg (commandWord 0x40#8 0#8) (val_mask_32 (b ++ a)))

theorem picpcm : Statement .picpcm := fun _ => by decide

end Sys2Proof.Laws.TableRow
end

