-- ==== Sys2Proof/Laws/Rasterizer.lean ====
section
/-! SUPPORT. What writing macroblocks does to the bit buffer, and how many samples a macroblock has
(44_rasterizer.md R183, R187). -/

namespace Sys2Proof.Machine

@[simp] theorem length_ueBits (v : Nat) : (ueBits v).length = ueLength v := length_msbFirst _ _

theorem ueLength_mbType : ueLength mbTypeIPcm = 9 := by decide

theorem length_tileSites (p : Plane) (x y : Nat) :
    (tileSites p x y).length = p.tileSide * p.tileSide := by
  simp [tileSites]

/-- A macroblock has 256 luma samples, and 128 chroma samples with 4:2:0. -/
theorem length_mbSites (c : FrameSpec) (x y : Nat) :
    (mbSites c x y).length = 256 + 128 * c.chroma.code := by
  unfold mbSites
  cases h : c.chroma <;> simp [length_tileSites, Plane.tileSide, Chroma.code]

theorem length_mbSamples {s : State} {c : FrameSpec} {mb : Nat × Nat} {l : List Nat}
    (h : s.mbSamples c mb = some l) : l.length = 256 + 128 * c.chroma.code := by
  rw [collect_length h, length_mbSites]

theorem length_mbOrder (c : FrameSpec) : c.mbOrder.length = c.nmb := by
  simp [FrameSpec.mbOrder, FrameSpec.nmb, Nat.mul_comm]

/-- The bits of samples of one depth, one after another. -/
theorem length_sampleBits (l : List Nat) (n : Nat) :
    (l.flatMap fun v => msbFirst v n).length = l.length * n := by
  simp

/-- The samples of a macroblock are a whole number of bytes (30_encoding.md R83). -/
theorem sampleBits_whole_bytes (c : FrameSpec) :
    ((256 + 128 * c.chroma.code) * c.depth.bits) % 8 = 0 := by
  cases c.chroma <;> cases c.depth <;> decide

/-- The bits one macroblock appends: type, alignment zeros, samples (44_rasterizer.md R183). -/
def mbPcmBits (d : BitDepth) (used : Nat) (samples : List Nat) : List Bool :=
  ueBits mbTypeIPcm ++ (alignmentZeros (used + 9) ++ samples.flatMap fun v => msbFirst v d.bits)

theorem alignmentZeros_mod (k : Nat) : alignmentZeros (k % 8) = alignmentZeros k := by
  simp [alignmentZeros]

theorem BitBuffer.mbPcm_eq {b : BitBuffer} (d : BitDepth) (l : List Nat) (h : b.wf = true) :
    b.mbPcm d l = b.appendBits (mbPcmBits d b.used.val l) := by
  have hw := b.wf_appendBits (ueBits mbTypeIPcm) h
  have hu : (b.appendBits (ueBits mbTypeIPcm)).used.val = (b.used.val + 9) % 8 := by
    rw [b.used_appendBits, length_ueBits, ueLength_mbType]
  rw [mbPcmBits, ← alignmentZeros_mod (b.used.val + 9), ← hu, ← b.appendBits_append _ _ h,
    ← BitBuffer.appendBits_append _ _ hw]
  rfl

theorem BitBuffer.wf_mbPcm {b : BitBuffer} (d : BitDepth) (l : List Nat) (h : b.wf = true) :
    (b.mbPcm d l).wf = true := by
  rw [b.mbPcm_eq d l h]; exact b.wf_appendBits _ h

theorem BitBuffer.bits_mbPcm {b : BitBuffer} (d : BitDepth) (l : List Nat) (h : b.wf = true) :
    (b.mbPcm d l).bits = b.bits ++ mbPcmBits d b.used.val l := by
  rw [b.mbPcm_eq d l h, b.bits_appendBits _ h]

/-- A macroblock appends exactly `mb_bits(USED)` bits (44_rasterizer.md R183). -/
theorem length_mbPcmBits (c : FrameSpec) (used : Nat) {l : List Nat}
    (hl : l.length = 256 + 128 * c.chroma.code) :
    (mbPcmBits c.depth used l).length = c.mbBits used := by
  simp [mbPcmBits, FrameSpec.mbBits, ueLength_mbType, hl]; omega

theorem BitBuffer.bitPos_mbPcm {b : BitBuffer} (c : FrameSpec) {l : List Nat} (h : b.wf = true)
    (hl : l.length = 256 + 128 * c.chroma.code) :
    (b.mbPcm c.depth l).bitPos = b.bitPos + c.mbBits b.used.val := by
  rw [b.mbPcm_eq c.depth l h, b.bitPos_appendBits _ h, length_mbPcmBits c _ hl]

/-- A macroblock always ends byte-aligned (30_encoding.md R83). -/
theorem BitBuffer.used_mbPcm (b : BitBuffer) (c : FrameSpec) {l : List Nat}
    (hl : l.length = 256 + 128 * c.chroma.code) : (b.mbPcm c.depth l).used = 0 := by
  apply Fin.ext
  have hz : (b.writeBits (mbTypeIPcm + 1) (ueLength mbTypeIPcm)).alignZero.used.val = 0 := by simp
  rw [BitBuffer.mbPcm, BitBuffer.used_appendBits, hz, length_sampleBits, hl, Nat.zero_add]
  exact sampleBits_whole_bytes c

/-- Writing macroblocks keeps the invariant of the buffer. -/
theorem BitBuffer.wf_foldl_mbPcm {b : BitBuffer} (d : BitDepth) (ls : List (List Nat))
    (h : b.wf = true) : (ls.foldl (fun b l => b.mbPcm d l) b).wf = true := by
  induction ls generalizing b with
  | nil => exact h
  | cons l ls ih => exact ih (b.wf_mbPcm d l h)

/-- Macroblocks written from an aligned buffer append `mb_bits(0)` bits each. -/
theorem BitBuffer.bitPos_foldl_mbPcm {b : BitBuffer} (c : FrameSpec) (ls : List (List Nat))
    (h : b.wf = true) (hu : b.used = 0)
    (hl : ∀ l ∈ ls, l.length = 256 + 128 * c.chroma.code) :
    (ls.foldl (fun b l => b.mbPcm c.depth l) b).bitPos = b.bitPos + ls.length * c.mbBits 0 := by
  induction ls generalizing b with
  | nil => simp
  | cons l ls ih =>
    have h1 := hl l (by simp)
    rw [List.foldl_cons, ih (b.wf_mbPcm c.depth l h) (b.used_mbPcm c h1)
      (fun m hm => hl m (by simp [hm])), b.bitPos_mbPcm c h h1, hu, List.length_cons, Nat.add_mul]
    simp; omega

/-- The bits macroblocks append from an aligned buffer, one after another. -/
theorem BitBuffer.bits_foldl_mbPcm {b : BitBuffer} (c : FrameSpec) (ls : List (List Nat))
    (h : b.wf = true) (hu : b.used = 0)
    (hl : ∀ l ∈ ls, l.length = 256 + 128 * c.chroma.code) :
    (ls.foldl (fun b l => b.mbPcm c.depth l) b).bits =
      b.bits ++ ls.flatMap (mbPcmBits c.depth 0) := by
  induction ls generalizing b with
  | nil => simp
  | cons l ls ih =>
    have h1 := hl l (by simp)
    rw [List.foldl_cons, ih (b.wf_mbPcm c.depth l h) (b.used_mbPcm c h1)
      (fun m hm => hl m (by simp [hm])), b.bits_mbPcm c.depth l h, hu]
    simp

/-- Macroblocks written from any buffer: the first one aligns, the others start aligned, and the total
is the amount `PICPCM` counts (44_rasterizer.md R187). -/
theorem BitBuffer.bitPos_foldl_cons_mbPcm {b : BitBuffer} (c : FrameSpec) (l : List Nat)
    (ls : List (List Nat)) (h : b.wf = true)
    (hl : ∀ m ∈ l :: ls, m.length = 256 + 128 * c.chroma.code) :
    ((l :: ls).foldl (fun b l => b.mbPcm c.depth l) b).bitPos =
      b.bitPos + (c.mbBits b.used.val + ls.length * c.mbBits 0) := by
  have h1 := hl l (by simp)
  rw [List.foldl_cons, BitBuffer.bitPos_foldl_mbPcm c ls (b.wf_mbPcm c.depth l h)
    (b.used_mbPcm c h1) (fun m hm => hl m (by simp [hm])), b.bitPos_mbPcm c h h1, Nat.add_assoc]

end Sys2Proof.Machine
end

