-- ==== Sys2Proof/Machine/HostProgram.lean ====
section
/-! DEFINITION. What the host issues: the pseudo-commands (30_encoding.md R86) and the command
sequences of the parameter sets, the slice and the encoder façade (46_host_sequences.md). The block
enforces none of it and no step reads it; it is the host's program, with the parameters R222 and R226
leave to the host as arguments. -/

namespace Sys2Proof.Machine

/-- What the document leaves to the host (46_host_sequences.md R222, R226; 43_nal.md R166). -/
structure HostParameters where
  /-- `PROFILE_IDC`: 100, 110 or 122. -/
  profileIdc : BitVec 8
  /-- `LEVEL_IDC`. -/
  levelIdc : BitVec 8
  /-- `IDR_PIC_ID` of the picture. -/
  idrPicId : BitVec 32
  /-- The framed product (`true`) or the naked one. -/
  sc : Bool
deriving DecidableEq, Repr

/-- `FLAG b` (30_encoding.md R86). -/
def flagCommand (b : Bool) : Instr := .u 1#8 (BitVec.ofNat 64 b.toNat)

/-- `BYTE x` (30_encoding.md R86). -/
def byteCommand (x : BitVec 8) : Instr := .u 8#8 (x.setWidth 64)

/-- `ue(v) x` for a field given as a number (30_encoding.md R86). -/
def ueCommand (x : Nat) : Instr := .ue (BitVec.ofNat 32 x)

/-- `RBSPEND` and the unit's `NAL` (30_encoding.md R86: `SPSNAL`, `PPSNAL`, `IDRNAL`). -/
def closeUnit (nalType : BitVec 5) (sc : Bool) : List Instr := [.trail, .epb, .nal 3#2 nalType sc]

/-- `CROP` (46_host_sequences.md R223). -/
def FrameSpec.crop (c : FrameSpec) : Bool := c.width.toNat % 16 != 0 || c.height.toNat % 16 != 0

/-- `SUB` (46_host_sequences.md R223). -/
def FrameSpec.cropUnit (c : FrameSpec) : Nat :=
  match c.chroma with
  | .mono400 => 1
  | .yuv420 => 2

/-- The four cropping offsets, written only with `CROP = 1` (46_host_sequences.md R221, R223). -/
def FrameSpec.cropCommands (c : FrameSpec) : List Instr :=
  if c.crop then
    [ueCommand 0, ueCommand ((16 * c.mbw - c.width.toNat) / c.cropUnit),
      ueCommand 0, ueCommand ((16 * c.mbh - c.height.toNat) / c.cropUnit)]
  else []

/-- The SPS, rows 1 to 26 of 46_host_sequences.md R221. -/
def spsCommands (c : FrameSpec) (h : HostParameters) : List Instr :=
  [byteCommand h.profileIdc, byteCommand 0#8, byteCommand h.levelIdc, ueCommand 0,
    ueCommand c.chroma.code, ueCommand (c.depth.bits - 8)] ++
  (if c.chroma = .yuv420 then [ueCommand (c.depth.bits - 8)] else []) ++
  [flagCommand true, flagCommand false, ueCommand 0, ueCommand 2, ueCommand 1, flagCommand false,
    ueCommand (c.mbw - 1), ueCommand (c.mbh - 1), flagCommand true, flagCommand false,
    flagCommand c.crop] ++
  c.cropCommands ++ [flagCommand false] ++ closeUnit 7#5 h.sc

/-- The PPS (46_host_sequences.md R224). -/
def ppsCommands (sc : Bool) : List Instr :=
  [ueCommand 0, ueCommand 0, flagCommand false, flagCommand false, ueCommand 0, ueCommand 0,
    ueCommand 0, flagCommand false, .u 2#8 0#64, .se 0#32, .se 0#32, .se 0#32, flagCommand false,
    flagCommand false, flagCommand false] ++ closeUnit 8#5 sc

/-- The slice header; `frame_num` is 0 for every picture (46_host_sequences.md R225, R226;
90_conflicts.md C5). -/
def sliceHeaderCommands (idrPicId : BitVec 32) : List Instr :=
  [ueCommand 0, ueCommand 7, ueCommand 0, .u 4#8 0#64, .ue idrPicId, flagCommand false,
    flagCommand false, .se 0#32]

/-- The IDR slice (46_host_sequences.md R225). -/
def sliceCommands (h : HostParameters) : List Instr :=
  sliceHeaderCommands h.idrPicId ++ [.picpcm] ++ closeUnit 5#5 h.sc

/-- `new(spec)`: reset, then `CFG` (46_host_sequences.md R227, 70_reset_and_hazards.md R280). -/
def newEncoder (c : FrameSpec) : List HostEvent :=
  [.reset, .command (encode (.cfg c.width c.height (BitVec.ofNat 8 c.depth.bits)
    (BitVec.ofNat 8 c.chroma.code)))]

/-- `encode_frame`: load the planes in use, `FRAME`, the parameter sets on the first call, the slice
(46_host_sequences.md R227). `first` is the negation of the host's `parameter_sets_emitted`. -/
def encodeFrame (c : FrameSpec) (h : HostParameters) (first : Bool) (y cb cr : List Byte) :
    List HostEvent :=
  .load .y y :: (if c.chroma = .yuv420 then [.load .cb cb, .load .cr cr] else []) ++
  ((.frame c.width c.height :: (if first then spsCommands c h ++ ppsCommands h.sc else [])) ++
    sliceCommands h).map fun i => .command (encode i)

end Sys2Proof.Machine
end

