-- ==== Sys2Proof/Tests/Slice0.lean ====
section
/-! SUPPORT. Tests of the model on words and values taken from the spec, one step each, and for every
obligation with hypotheses a witness that meets them. -/

namespace Sys2Proof.Tests

open Sys2Proof.Machine Sys2Proof.Claims

/-! ## Small states -/

/-- The reset state with something in the bit buffer. -/
def holding (bytes : List Byte) (used : Fin 8) : State := { State.reset with rbsp := ⟨bytes, used⟩ }

/-- A closed RBSP. -/
def trailed (bytes : List Byte) : State := { holding bytes 0 with phase := .trailed }

/-- A closed RBSP with its escaped bytes. -/
def escaped (bytes esc : List Byte) : State := { holding bytes 0 with phase := .escaped, esc := esc }

/-- The reset state with a configuration and a frame of it in frame memory. -/
def showing (c : FrameSpec) (y cb cr : List Byte) : State :=
  { State.reset with
    cfg := some c, frame := some ⟨c.width, c.height⟩
    pixY := Memory.ofBytes y, pixCb := Memory.ofBytes cb, pixCr := Memory.ofBytes cr }

/-- The state with capacities. -/
def bounded (buf esc : Nat) (s : State) : State := { s with config := ⟨some buf, some esc⟩ }

/-- The state with a list of host events presented. -/
def given (l : List HostEvent) (s : State) : State := { s with input := l }

/-- A latched `InvariantViolation`. -/
def faulted : State := { State.reset with fault := true, cause := 6#8 }

/-- Some part of the state that one presented word leaves. -/
def saw {α : Type} (s : State) (w : Nat) (part : State → α) : Option α :=
  match step (s.withFetchWord 80 w) with
  | .next t => some (part t)
  | .fault _ => none
  | .refused _ => none

/-- `STATUS` and `RESULT` of the answer to one word. -/
def answer (s : State) (w : Nat) : Option (Option Response) := saw s w State.response

/-- 1 by 1, 8 bits, monochrome: the smallest picture (45_config.md R211). -/
def spec1 : FrameSpec := ⟨1#16, 1#16, .eight, .mono400⟩

/-- 1 by 1, 12 bits, monochrome. -/
def spec12 : FrameSpec := ⟨1#16, 1#16, .twelve, .mono400⟩

/-- 2 by 2, 4:2:0: the smallest colour picture (45_config.md R213). -/
def spec420 : FrameSpec := ⟨2#16, 2#16, .eight, .yuv420⟩

/-- The largest picture of each kind. -/
def specMax : FrameSpec := ⟨65535#16, 65535#16, .twelve, .mono400⟩

def pic1 : State := showing spec1 [0xA5#8] [] []
def pic12 : State := showing spec12 [0xBC#8, 0x0A#8] [] []
def pic420 : State := showing spec420 [1#8, 2#8, 3#8, 4#8] [5#8] [6#8]

/-! ## Well-formedness: one ill-formed term for each check -/

theorem test_wellFormed_u : (Instr.u 64#8 0#64).wellFormed = true ∧ (Instr.u 65#8 0#64).wellFormed = false := by
  decide
theorem test_wellFormed_nal :
    (Instr.nal 3#2 8#5 true).wellFormed = true ∧ (Instr.nal 3#2 6#5 true).wellFormed = false := by decide
/-- An ill-formed command is refused with `IllegalCommand` (30_encoding.md R74 c, d). -/
theorem test_illFormed_faults :
    answer State.reset 0x10410000000000000000 = some (some ⟨1#8, 0#64⟩) ∧
    answer State.reset 0x30660000000000000001 = some (some ⟨1#8, 0#64⟩) := by decide

/-! ## Decoding: the fields of 30_encoding.md R70 to R72, written out -/

theorem test_word_cfg :
    decode (0b00000001#8 ++ 0#8 ++ 0#16 ++ 1#8 ++ 8#8 ++ 16#16 ++ 32#16) =
      .ok (.cfg 32#16 16#16 8#8 1#8) := by decide
theorem test_word_frame :
    decode (0b00000010#8 ++ 0#8 ++ 0#32 ++ 16#16 ++ 32#16) = .ok (.frame 32#16 16#16) := by decide
theorem test_word_u :
    decode (0b00010000#8 ++ 0b00001000#8 ++ 100#64) = .ok (.u 8#8 100#64) := by decide
theorem test_word_ue :
    decode (0b00010001#8 ++ 0#8 ++ 0#32 ++ 25#32) = .ok (.ue 25#32) := by decide
theorem test_word_se :
    decode (0b00010010#8 ++ 0#8 ++ 0#32 ++ 0xFFFFFFFE#32) = .ok (.se (BitVec.ofInt 32 (-2))) := by decide
theorem test_word_align0 : decode (0b00010011#8 ++ 0#8 ++ 0#64) = .ok .align0 := by decide
theorem test_word_bitpos : decode (0b00010100#8 ++ 0#8 ++ 0#64) = .ok .bitpos := by decide
theorem test_word_aligned : decode (0b00010101#8 ++ 0#8 ++ 0#64) = .ok .aligned := by decide
theorem test_word_trail : decode (0b00100000#8 ++ 0#8 ++ 0#64) = .ok .trail := by decide
theorem test_word_epb : decode (0b00100001#8 ++ 0#8 ++ 0#64) = .ok .epb := by decide
theorem test_word_nal :
    decode (0b00110000#8 ++ 0b0#1 ++ 0b11#2 ++ 0b00101#5 ++ 0#63 ++ 0b1#1) = .ok (.nal 3#2 5#5 true) := by
  decide
theorem test_word_mbpcm :
    decode (0b01000000#8 ++ 0#8 ++ 0#32 ++ 2#16 ++ 1#16) = .ok (.mbpcm 1#16 2#16) := by decide
theorem test_word_picpcm : decode (0b01000001#8 ++ 0#8 ++ 0#64) = .ok .picpcm := by decide
/-- Each row's pattern of spec/opcode_table.json, as the host hands it over. -/
theorem test_tableWord :
    decodeTableWord 80 0x41000000000000000000 = some .picpcm ∧
    decodeTableWord 80 0x30670000000000000001 = some (.nal 3#2 7#5 true) ∧
    decodeTableWord 80 0x00000000000000000000 = none := by decide
/-- Vector V8 of 96_test_vectors_units.md: all-zero and all-one words, reserved bits. -/
theorem test_illegal_words :
    answer State.reset 0x13000000000000000001 = some (some ⟨1#8, 0#64⟩) ∧
    answer State.reset 0x14010000000000000000 = some (some ⟨1#8, 0#64⟩) ∧
    answer State.reset 0x00000000000000000000 = some (some ⟨1#8, 0#64⟩) ∧
    answer State.reset 0xFFFFFFFFFFFFFFFFFFFF = some (some ⟨1#8, 0#64⟩) ∧
    answer State.reset 0x11010000000000000000 = some (some ⟨1#8, 0#64⟩) ∧
    answer State.reset 0x11000000000100000000 = some (some ⟨1#8, 0#64⟩) := by
  refine ⟨?_, ?_, ?_, ?_, ?_, ?_⟩ <;> decide

/-! ## One step of each command -/

/-- 45_config.md R211, its example. -/
theorem test_cfg_binds :
    saw State.reset 0x01000000000800110011 State.cfg = some (some ⟨17#16, 17#16, .eight, .mono400⟩) := by
  decide
/-- 45_config.md R212, vector V50. -/
theorem test_cfg_twelve_bit_colour : answer State.reset 0x01000000010C00100010 = some (some ⟨2#8, 0#64⟩) := by
  decide
/-- 44_rasterizer.md R181, its example: 289 bytes for 17 by 17. -/
theorem test_frame_lengths :
    (let s := { State.reset with
        cfg := some ⟨17#16, 17#16, .eight, .mono400⟩, pixY := Memory.ofBytes (List.replicate 289 0#8) }
     saw s 0x02000000000000110011 State.frame = some (some ⟨17#16, 17#16⟩) ∧
     answer s 0x02000000000000100010 = some (some ⟨3#8, 0#64⟩)) := by decide +kernel
/-- 40_bitwriter.md R102, its example: `U 8, 0xFF` after `U 3, 5`. -/
theorem test_u_spills : saw (holding [0xA0#8] 3) 0x100800000000000000FF State.rbsp =
    some ⟨[0xBF#8, 0xE0#8], 3⟩ := by decide
/-- 40_bitwriter.md R102: `U 0, 1` faults, and appends nothing to the sink. -/
theorem test_u_zero_width : answer State.reset 0x10000000000000000001 = some (some ⟨6#8, 0#64⟩) := by decide
/-- 41_expgolomb.md R121, its example. -/
theorem test_ue_25 : saw State.reset 0x11000000000000000019 State.rbsp = some ⟨[0x0D#8, 0x00#8], 1⟩ := by
  decide
/-- 41_expgolomb.md R121: 31 zeros and 32 ones (vector V10). -/
theorem test_ue_largest : saw State.reset 0x110000000000FFFFFFFE State.rbsp =
    some ⟨[0#8, 0#8, 0#8, 1#8, 0xFF#8, 0xFF#8, 0xFF#8, 0xFE#8], 7⟩ := by decide
/-- 30_encoding.md R77: `se(-2)` is `00101`. -/
theorem test_se_minus_two : saw State.reset 0x120000000000FFFFFFFE State.rbsp = some ⟨[0x28#8], 5⟩ := by
  decide
/-- 41_expgolomb.md R123: refused at `-2^31`. -/
theorem test_se_least : answer State.reset 0x12000000000080000000 = some (some ⟨6#8, 0#64⟩) := by decide
/-- 40_bitwriter.md R104, its example. -/
theorem test_align0 : saw (holding [0xA0#8] 3) 0x13000000000000000000 State.rbsp = some ⟨[0xA0#8], 0⟩ := by
  decide
/-- 40_bitwriter.md R105, its example. -/
theorem test_bitpos : answer (holding [0xBF#8, 0xE0#8] 3) 0x14000000000000000000 = some (some ⟨0#8, 11#64⟩) := by
  decide
/-- 40_bitwriter.md R106, its example. -/
theorem test_aligned : answer (holding [0xA0#8] 3) 0x15000000000000000000 = some (some ⟨0#8, 0#64⟩) ∧
    answer (holding [0xA0#8] 0) 0x15000000000000000000 = some (some ⟨0#8, 1#64⟩) := by decide
/-- 42_rbsp.md R141, its two examples. -/
theorem test_trail :
    saw (holding [0xCE#8, 0x38#8] 0) 0x20000000000000000000 State.rbsp =
      some ⟨[0xCE#8, 0x38#8, 0x80#8], 0⟩ ∧
    saw (holding [0x64#8, 0#8, 0x1F#8, 0xF5#8, 0xA7#8, 0#8] 3) 0x20000000000000000000 State.rbsp =
      some ⟨[0x64#8, 0#8, 0x1F#8, 0xF5#8, 0xA7#8, 0x10#8], 0⟩ := by decide
/-- 42_rbsp.md R143, its example. -/
theorem test_epb :
    saw (trailed [0x25#8, 0#8, 0#8, 1#8, 0x80#8]) 0x21000000000000000000 (fun t => (t.esc, t.res)) =
      some ([0x25#8, 0#8, 0#8, 3#8, 1#8, 0x80#8], 1#64) := by decide
/-- 42_rbsp.md R143, a corner case: the count restarts after an insertion. -/
theorem test_epb_run : saw (trailed [0#8, 0#8, 0#8, 0#8, 0x80#8]) 0x21000000000000000000 State.esc =
    some [0#8, 0#8, 3#8, 0#8, 0#8, 0x80#8] := by decide
/-- 43_nal.md R161, its example. -/
theorem test_nal_framed :
    saw (escaped [0xCE#8, 0x38#8, 0x80#8] [0xCE#8, 0x38#8, 0x80#8]) 0x30680000000000000001
        (fun t => (t.out, t.res, t.phase)) =
      some ([0#8, 0#8, 0#8, 1#8, 0x68#8, 0xCE#8, 0x38#8, 0x80#8], 8#64, .rbspOpen) := by decide
/-- 43_nal.md R164, vector V39: the sink refuses and `OUT` stays. -/
theorem test_nal_sink_refuses :
    saw { escaped [0x80#8] [0x80#8] with sinkOk := false } 0x30670000000000000001
        (fun t => (t.out, t.response)) = some ([], some ⟨5#8, 0#64⟩) := by decide
/-- 44_rasterizer.md R183, R184 on a 1 by 1 picture: `mb_type`, alignment, the pixel, 255 zeros. -/
theorem test_mbpcm_pads :
    saw pic1 0x40000000000000000000 State.rbsp =
      some ⟨[0x0D#8, 0x00#8, 0xA5#8] ++ List.replicate 255 0#8, 0⟩ := by decide +kernel
/-- 44_rasterizer.md R183: a macroblock address outside the picture. -/
theorem test_mbpcm_address : answer pic1 0x40000000000000000001 = some (some ⟨6#8, 0#64⟩) := by decide
/-- 20_memory.md R42: a 12-bit sample is read little-endian and written most significant bit first. -/
theorem test_picpcm_twelve_bits :
    saw pic12 0x41000000000000000000 (fun t => (t.rbsp.buf.take 4, t.rbsp.buf.length)) =
      some ([0x0D#8, 0x00#8, 0xAB#8, 0xC0#8], 386) := by decide +kernel
/-- 44_rasterizer.md R185: one of bits 15 to 12 is set. -/
theorem test_picpcm_sample_range :
    answer (showing spec12 [0x00#8, 0x10#8] [] []) 0x41000000000000000000 = some (some ⟨4#8, 0#64⟩) := by
  decide +kernel
/-- 60_exceptions.md R255: the first cause is kept, and even an illegal word is answered with it. -/
theorem test_faulted_state : answer faulted 0xFF000000000000000000 = some (some ⟨6#8, 0#64⟩) := by decide
/-- 40_bitwriter.md R107, vector V52: the capacity of 2 bytes is full. -/
theorem test_capacity :
    answer (bounded 2 2 (holding [0xFF#8, 0xFF#8] 0)) 0x10010000000000000000 = some (some ⟨8#8, 0#64⟩) := by
  decide
/-- 20_memory.md R54: load, the sink's answer and reset are steps of their own. -/
theorem test_host_events :
    step (given [.load .cb [7#8]] State.reset) = .next { State.reset with pixCb := Memory.ofBytes [7#8] } ∧
    step (given [.sinkAnswer false] State.reset) = .next { State.reset with sinkOk := false } ∧
    step (given [.reset] faulted) = .next State.reset := by
  refine ⟨?_, ?_, ?_⟩ <;> rfl

/-! ## Witnesses: every obligation with hypotheses has a case that meets them -/

theorem witness_EncodeOfDecodeIsTheWord :
    decode 0x30680000000000000001#80 = .ok (.nal 3#2 8#5 true) := by decide

theorem presents_command (s : State) (w : CommandWord) : Presents (given [.command w] s) w := ⟨[], rfl⟩

/-- One illegal word for each way to be illegal, each with one bit or one number too much. -/
theorem witness_IllegalWordsRaiseIllegalCommand :
    State.reset.fault = false ∧
    (∀ w, Presents (given [.command w] State.reset) w) ∧
    IllegalWord 0x42000000000000000000#80 ∧
    IllegalWord 0x41010000000000000000#80 ∧
    IllegalWord 0x41000000000000000001#80 ∧
    IllegalWord 0x02000000000100000000#80 ∧
    IllegalWord 0x11010000000000000000#80 ∧
    IllegalWord 0x01000001000000000000#80 ∧
    IllegalWord 0x10410000000000000000#80 ∧
    IllegalWord 0x30010000000000000002#80 ∧
    IllegalWord 0x30810000000000000000#80 ∧
    IllegalWord 0x30020000000000000000#80 := by
  refine ⟨rfl, fun w => presents_command _ w, ?_, ?_, ?_, ?_, ?_, ?_, ?_, ?_, ?_, ?_⟩ <;> unfold IllegalWord <;> decide
/-- Legal words next to them. -/
theorem witness_IllegalWordsRaiseIllegalCommand_legal :
    ¬ IllegalWord 0x41000000000000000000#80 ∧
    ¬ IllegalWord 0x020000000000FFFFFFFF#80 ∧
    ¬ IllegalWord 0x01000000FFFFFFFFFFFF#80 ∧
    ¬ IllegalWord 0x10400000000000000000#80 ∧
    ¬ IllegalWord 0x30680000000000000001#80 := by
  refine ⟨?_, ?_, ?_, ?_, ?_⟩ <;> unfold IllegalWord <;> decide
theorem witness_IllegalWordsRaiseIllegalCommand_cfg :
    State.reset.cfg = none ∧
    ¬ (1#16 ≠ 0#16 ∧ 0#16 ≠ 0#16 ∧ (8#8 = 8#8 ∨ 8#8 = 12#8) ∧ (0#8 = 0#8 ∨ 0#8 = 1#8)) ∧
    ¬ (1#16 ≠ 0#16 ∧ 1#16 ≠ 0#16 ∧ (10#8 = 8#8 ∨ 10#8 = 12#8) ∧ (0#8 = 0#8 ∨ 0#8 = 1#8)) ∧
    ¬ (1#16 ≠ 0#16 ∧ 1#16 ≠ 0#16 ∧ (8#8 = 8#8 ∨ 8#8 = 12#8) ∧ (2#8 = 0#8 ∨ 2#8 = 1#8)) := by decide

theorem witness_StepExecutesTheDecodedCommand :
    (given [.command 0x20000000000000000000#80] State.reset).input = .command 0x20000000000000000000#80 :: [] ∧
    decode 0x20000000000000000000#80 = .ok .trail := by decide

theorem witness_LoadedPlaneReadsBack :
    (given [.load .cb [0#8, 5#8]] pic420).input = .load .cb [0#8, 5#8] :: [] := rfl

theorem witness_IdleAndSinkStepsChangeNothingElse :
    State.reset.input = [] ∧ (given [.sinkAnswer false] pic1).input = .sinkAnswer false :: [] := by decide

theorem presents_reset (s : State) : PresentsReset (given [.reset] s) := ⟨[], rfl⟩
theorem not_presentsReset (s : State) (w : CommandWord) : ¬ PresentsReset (given [.command w] s) :=
  fun ⟨_, h⟩ => by cases h

theorem witness_ResetEventAndItsUniqueness :
    PresentsReset (given [.reset] faulted) ∧
    (∃ t, step (given [.command 0#80] { pic1 with fault := true, cause := 3#8 }) = .next t) ∧
    ¬ PresentsReset (given [.command 0#80] { pic1 with fault := true, cause := 3#8 }) ∧
    { pic1 with fault := true, cause := 3#8 }.fault = true ∧ pic1.cfgValid = true :=
  ⟨presents_reset _, ⟨_, rfl⟩, not_presentsReset _ _, rfl, rfl⟩
theorem witness_ResetEventAndItsUniqueness_out :
    (match step (given [.command 0x30680000000000000001#80] (escaped [0x80#8] [0x80#8])) with
     | .next t => decide (t.out ≠ [])
     | _ => false) = true := by decide

theorem witness_FactsRightAfterReset :
    PresentsReset (given [.reset] faulted) ∧
    step (given [.reset] faulted) = .next (given [] faulted).afterReset ∧
    (Instr.nal 3#2 5#5 true).wellFormed = true := ⟨presents_reset _, rfl, by decide⟩

theorem witness_FaultedStateRefusesEverything :
    (given [.command 0#80] faulted).fault = true ∧
    (given [.command 0#80] faulted).input = .command 0#80 :: [] ∧
    HostEvent.reset ∉ (given [.command 0#80, .load .y [1#8]] faulted).input ∧
    ∃ t, Sys2Proof.core.run 2 (given [.command 0#80, .load .y [1#8]] faulted) = .next t :=
  ⟨rfl, rfl, by decide, _, rfl⟩

theorem witness_FaultEntryIsPrecise :
    (given [.command 0x10000000000000000001#80] pic1).fault = false ∧
    Presents (given [.command 0x10000000000000000001#80] pic1) 0x10000000000000000001#80 ∧
    ∃ t, step (given [.command 0x10000000000000000001#80] pic1) = .next t ∧ t.fault = true :=
  ⟨rfl, presents_command _ _, _, rfl, by decide⟩

theorem witness_SequenceTableDecidesSequenceError :
    State.reset.fault = false ∧ Instr.epb.wellFormed = true ∧ ¬ SequenceAccepts .epb State.reset ∧
    SequenceAccepts .trail State.reset ∧ SequenceAccepts .picpcm pic1 ∧
    ¬ SequenceAccepts (.cfg 1#16 1#16 8#8 0#8) pic1 := by
  refine ⟨rfl, rfl, ?_, rfl, ⟨rfl, rfl, rfl⟩, ?_⟩ <;> simp [SequenceAccepts] <;> decide

/-! Frame memory holds what the small pictures need, and their samples are in range. -/

theorem pic1_planesHold : PlanesHold pic1 spec1 := by
  intro p _; cases p <;> decide
theorem pic12_planesHold : PlanesHold pic12 spec12 := by
  intro p _; cases p <;> decide
theorem pic420_planesHold : PlanesHold pic420 spec420 := by
  intro p _; cases p <;> decide
theorem pic12_inRange : PictureInRange pic12 spec12 := by
  intro p x y hp hx hy
  cases p
  · obtain rfl : x = 0 := Nat.lt_one_iff.mp hx
    obtain rfl : y = 0 := Nat.lt_one_iff.mp hy
    decide
  · cases hp
  · cases hp
theorem byte_inRange (s : State) (c : FrameSpec) (h : c.depth = .eight) : PictureInRange s c := by
  intro p x y _ _ _
  simp only [pixel, h]
  exact BitVec.isLt _
theorem macroblock_inRange (s : State) (c : FrameSpec) (x y : Nat) (h : PictureInRange s c) :
    MacroblockInRange s c x y := fun p i j hp hi hj _ _ => h p i j hp hi hj
theorem roomFor_self (n : Nat) : roomFor (some n) n := fun _ h => by cases h; exact Nat.le_refl _

/-- Configured for 17 by 17, with 256 bytes loaded: the short plane of 44_rasterizer.md R181's example. -/
def short17 : State :=
  { State.reset with
    cfg := some ⟨17#16, 17#16, .eight, .mono400⟩, pixY := Memory.ofBytes (List.replicate 256 0#8) }

/-- `FRAME 17, 17` after 256 bytes (44_rasterizer.md R181, vector V51): the length check of `PIX_Y` fails
first. -/
theorem witness_FirstFailingCheckDecidesTheFault_shortPlane :
    short17.fault = false ∧ ¬ ReadsSamples (.frame 17#16 17#16) ∧
    ∃ before p after, checks (.frame 17#16 17#16) short17 = before ++ (p, 3#8) :: after ∧
      (∀ q ∈ before, q.1) ∧ ¬ p := by
  refine ⟨rfl, fun h => ?_, ⟨[_, _, _], _, _, rfl, ?_, fun h => ?_⟩⟩
  · rcases h with ⟨_, _, h⟩ | h <;> cases h
  · simp only [SequenceAccepts, List.mem_cons, List.not_mem_nil, or_false, forall_eq_or_imp, forall_eq]
    exact ⟨rfl, rfl, fun c h => by cases h; exact ⟨rfl, rfl⟩⟩
  · exact absurd (h _ rfl) (by decide +kernel)
/-- Between `CFG` and the load of the planes: an operand, a capacity and a sink check fail first, and the
address check of `MBPCM`, which stands before its samples. -/
theorem witness_FirstFailingCheckDecidesTheFault_fails :
    (∃ before p after, checks (.u 3#8 8#64) short17 = before ++ (p, 6#8) :: after ∧
      (∀ q ∈ before, q.1) ∧ ¬ p) ∧
    (∃ before p after, checks .trail (bounded 0 0 short17) = before ++ (p, 8#8) :: after ∧
      (∀ q ∈ before, q.1) ∧ ¬ p) ∧
    (∃ before p after,
      checks (.nal 3#2 7#5 true) { escaped [0x80#8] [0x80#8] with cfg := short17.cfg, sinkOk := false } =
        before ++ (p, 5#8) :: after ∧ (∀ q ∈ before, q.1) ∧ ¬ p) ∧
    (∃ before p after, checks (.mbpcm 1#16 0#16) { pic1 with pixY := Memory.empty } =
      before ++ (p, 6#8) :: after ∧ (∀ q ∈ before, q.1) ∧ ¬ p) ∧
    ¬ (6#8 = 4#8 ∨ 6#8 = 8#8) := by
  refine ⟨⟨[_, _], _, _, rfl, ?_, by decide⟩, ⟨[_, _], _, _, rfl, ?_, fun h => ?_⟩,
    ⟨[_, _, _], _, _, rfl, ?_, by decide⟩, ⟨[_, _], _, _, rfl, ?_, fun h => ?_⟩, by decide⟩
  · simp [Instr.wellFormed, SequenceAccepts]; decide
  · simp [Instr.wellFormed, SequenceAccepts]; decide
  · exact absurd (h rfl 0 rfl) (by decide)
  · simp [Instr.wellFormed, SequenceAccepts]; decide
  · simp [Instr.wellFormed, SequenceAccepts]; decide
  · exact absurd (h spec1 rfl) (by decide)
/-- A sample out of range (44_rasterizer.md R185), with frame memory as configured. -/
theorem witness_FirstFailingCheckDecidesTheFault_sampleRange :
    ConfiguredPlanesHold (showing spec12 [0x00#8, 0x10#8] [] []) ∧
    ∃ before p after, checks .picpcm (showing spec12 [0x00#8, 0x10#8] [] []) =
      before ++ (p, 4#8) :: after ∧ (∀ q ∈ before, q.1) ∧ ¬ p := by
  refine ⟨fun c h p hp => ?_, [_, _], _, _, rfl, ?_, fun h => ?_⟩
  · cases h; cases p
    · decide
    · cases hp
    · cases hp
  · simp only [SequenceAccepts, List.mem_cons, List.not_mem_nil, or_false, forall_eq_or_imp, forall_eq]
    exact ⟨rfl, rfl, rfl, rfl⟩
  · exact absurd (h spec12 rfl .y 0 0 rfl (by decide) (by decide)) (by decide)
/-- A full buffer, with frame memory as configured. -/
theorem witness_FirstFailingCheckDecidesTheFault_capacity :
    ConfiguredPlanesHold (bounded 257 0 pic1) ∧
    ∃ before p after, checks (.mbpcm 0#16 0#16) (bounded 257 0 pic1) = before ++ (p, 8#8) :: after ∧
      (∀ q ∈ before, q.1) ∧ ¬ p := by
  have hc : ∀ c, (bounded 257 0 pic1).cfg = some c → c = spec1 := fun c h => by cases h; rfl
  refine ⟨fun c h => by cases hc c h; exact pic1_planesHold,
    [_, _, _, _], _, _, rfl, ?_, fun h => absurd (h spec1 rfl 257 rfl) (by decide)⟩
  simp only [SequenceAccepts, List.mem_cons, List.not_mem_nil, or_false, forall_eq_or_imp, forall_eq]
  refine ⟨rfl, ⟨rfl, rfl, rfl⟩, fun c h => ?_, fun c h => ?_⟩ <;> cases hc c h
  · decide
  · exact macroblock_inRange _ _ _ _ (byte_inRange _ _ rfl)
/-- `FirstFailingCheckDecidesTheFault`: all checks pass, at a full capacity. -/
theorem witness_FirstFailingCheckDecidesTheFault_passes :
    (∀ q ∈ checks (.u 64#8 (BitVec.allOnes 64)) (bounded 8 0 State.reset), q.1) ∧
    (∀ q ∈ checks (.mbpcm 0#16 0#16) (bounded 258 0 pic1), q.1) ∧
    ConfiguredPlanesHold (bounded 258 0 pic1) := by
  have h : ∀ c, (bounded 258 0 pic1).cfg = some c → c = spec1 := fun c h => by cases h; rfl
  refine ⟨?_, ?_, fun c hc => by cases h c hc; exact pic1_planesHold⟩
  · simp [checks, SequenceAccepts, roomFor, bounded]; decide
  · simp only [checks, SequenceAccepts, List.mem_cons, List.not_mem_nil, or_false, forall_eq_or_imp, forall_eq]
    refine ⟨rfl, ⟨rfl, rfl, rfl⟩, fun c hc => ?_, fun c hc => ?_, fun c hc => ?_⟩ <;> cases h c hc
    · decide
    · exact macroblock_inRange _ _ _ _ (byte_inRange _ _ rfl)
    · exact roomFor_self _

theorem witness_IdrUnitsAreReferenceUnits :
    (escaped [0x80#8] [0x80#8]).fault = false ∧ (escaped [0x80#8] [0x80#8]).phase = .escaped ∧
    ∃ t, exec (.nal 1#2 5#5 false) (escaped [0x80#8] [0x80#8]) = .next t ∧ t.fault = false :=
  ⟨rfl, rfl, _, rfl, rfl⟩

theorem legal1 : spec1.Legal := ⟨by decide, by decide, by decide, by decide⟩
theorem legal420 : spec420.Legal := ⟨by decide, by decide, by decide, by decide⟩

theorem witness_CfgBindsTheFrameSpec :
    State.reset.fault = false ∧ State.reset.cfg = none ∧ specMax.Legal ∧ spec1.Legal ∧ spec420.Legal :=
  ⟨rfl, rfl, ⟨by decide, by decide, by decide, by decide⟩, legal1, legal420⟩

theorem witness_FrameIsDeclared :
    (pic1.cfg = some spec1 ∧ pic1.pixY.len = spec1.width.toNat * spec1.height.toNat * spec1.bps) ∧
    (pic420.cfg = some spec420 ∧
      pic420.pixY.len = spec420.width.toNat * spec420.height.toNat * spec420.bps ∧
      pic420.pixCb.len = spec420.width.toNat / 2 * (spec420.height.toNat / 2) * spec420.bps ∧
      pic420.pixCr.len = spec420.width.toNat / 2 * (spec420.height.toNat / 2) * spec420.bps) := by decide

theorem witness_UAppendsTheField :
    State.reset.rbsp.wf = true ∧ State.reset.phase = .rbspOpen ∧ (0#8).toNat ≤ 64 ∧
    (0#64).toNat < 2 ^ (0#8).toNat ∧ (64#8).toNat ≤ 64 ∧ (BitVec.allOnes 64).toNat < 2 ^ (64#8).toNat ∧
    roomFor (bounded 8 0 State.reset).config.bufCap (ceilDiv (State.reset.rbsp.bitPos + 64) 8) :=
  ⟨by decide, by decide, by decide, by decide, by decide, by decide, roomFor_self _⟩

theorem witness_UeAppendsTheCode :
    (holding [0xA0#8] 3).rbsp.wf = true ∧
    ((0#32).toNat ≤ 2 ^ 32 - 2 ∧ 2 ^ 0 ≤ (0#32).toNat + 1 ∧ (0#32).toNat + 1 < 2 ^ (0 + 1)) ∧
    (0xFFFFFFFE#32).toNat ≤ 2 ^ 32 - 2 ∧ 2 ^ 31 ≤ (0xFFFFFFFE#32).toNat + 1 ∧
    (0xFFFFFFFE#32).toNat + 1 < 2 ^ (31 + 1) ∧
    roomFor (bounded 8 0 State.reset).config.bufCap (ceilDiv (State.reset.rbsp.bitPos + (2 * 31 + 1)) 8) :=
  ⟨by decide, by decide, by decide, by decide, by decide, roomFor_self _⟩

/-- The largest magnitudes of both signs, and 0. -/
theorem witness_SeAppendsTheMappedCode :
    ((0 < (0x7FFFFFFF#32).toInt ∧ ((2 ^ 32 - 3 : Nat) : Int) = 2 * (0x7FFFFFFF#32).toInt - 1) ∧
      2 ^ 31 ≤ 2 ^ 32 - 3 + 1 ∧ 2 ^ 32 - 3 + 1 < 2 ^ (31 + 1)) ∧
    (((0x80000001#32).toInt ≤ 0 ∧ ((2 ^ 32 - 2 : Nat) : Int) = -2 * (0x80000001#32).toInt) ∧
      (0x80000001#32).toInt ≠ -2 ^ 31 ∧ 2 ^ 31 ≤ 2 ^ 32 - 2 + 1 ∧ 2 ^ 32 - 2 + 1 < 2 ^ (31 + 1)) ∧
    ((0#32).toInt ≤ 0 ∧ ((0 : Nat) : Int) = -2 * (0#32).toInt ∧ 2 ^ 0 ≤ 0 + 1) := by decide

theorem witness_Align0ReachesTheBoundary :
    (holding [0xFE#8] 7).fault = false ∧ (holding [0xFE#8] 7).rbsp.wf = true ∧
    (holding [0xFE#8] 7).phase = .rbspOpen ∧ (holding [] 0).rbsp.wf = true := by decide

theorem witness_QueriesAnswerThePosition :
    (escaped [0x80#8] [0x80#8]).fault = false ∧ (escaped [0x80#8] [0x80#8]).rbsp.wf = true ∧
    (holding [0xBF#8, 0xE0#8] 3).rbsp.bits.length < 2 ^ 64 := by decide

/-- A full buffer with a partial byte, and an aligned one with one byte of room. -/
theorem witness_TrailClosesTheRbsp :
    ((holding [0xFE#8] 7).rbsp.wf = true ∧ ¬ (holding [0xFE#8] 7).rbsp.used = 0) ∧
    ((holding [0xFF#8] 0).rbsp.wf = true ∧
      roomFor (bounded 2 0 (holding [0xFF#8] 0)).config.bufCap ((holding [0xFF#8] 0).rbsp.buf.length + 1)) :=
  ⟨by decide, by decide, roomFor_self _⟩

theorem witness_EpbFillsTheEscapedBuffer :
    (trailed [0#8, 0#8, 0x03#8]).fault = false ∧ (trailed [0#8, 0#8, 0x03#8]).phase = .trailed ∧
    roomFor (bounded 3 4 (trailed [0#8, 0#8, 0x03#8])).config.escCap (escape [0#8, 0#8, 0x03#8]).length ∧
    (escape [0#8, 0#8, 0x03#8]).length < 2 ^ 64 :=
  ⟨rfl, rfl, roomFor_self _, by decide⟩

theorem witness_NalDeliversTheUnit :
    (escaped [0x80#8] [0x80#8]).fault = false ∧ (escaped [0x80#8] [0x80#8]).phase = .escaped ∧
    (5#5).toNat ∈ [1, 5, 7, 8] ∧ ¬ ((5#5).toNat = 5 ∧ (1#2).toNat = 0) ∧
    (1#5).toNat ∈ [1, 5, 7, 8] ∧ ¬ ((1#5).toNat = 5 ∧ (0#2).toNat = 0) ∧
    (escaped [0x80#8] [0x80#8]).sinkOk = true ∧ (escaped [0x80#8] [0x80#8]).esc.length + 5 < 2 ^ 64 := by
  decide

/-- The last macroblock of a 4:2:0 picture, in a buffer with just enough room. -/
theorem witness_MbpcmAppendsTheMacroblock :
    (bounded 386 0 pic420).fault = false ∧ (bounded 386 0 pic420).rbsp.wf = true ∧
    (bounded 386 0 pic420).phase = .rbspOpen ∧ (bounded 386 0 pic420).cfg = some spec420 ∧
    (bounded 386 0 pic420).frame = some ⟨2#16, 2#16⟩ ∧ (0#16).toNat < spec420.mbw ∧
    (0#16).toNat < spec420.mbh ∧ PlanesHold (bounded 386 0 pic420) spec420 ∧
    MacroblockInRange (bounded 386 0 pic420) spec420 0 0 ∧
    roomFor (bounded 386 0 pic420).config.bufCap (ceilDiv (pic420.rbsp.bitPos + spec420.mbBits 0) 8) :=
  ⟨rfl, rfl, rfl, rfl, rfl, by decide, by decide, pic420_planesHold,
    macroblock_inRange _ _ _ _ (byte_inRange _ _ rfl), roomFor_self _⟩

/-! States that meet the invariant. -/

theorem inv_showing (c : FrameSpec) (hc : c.Legal) (y cb cr : List Byte)
    (hy : (Memory.ofBytes y).wf = true) (hcb : (Memory.ofBytes cb).wf = true)
    (hcr : (Memory.ofBytes cr).wf = true) : (showing c y cb cr).Inv where
  planes p := by cases p <;> assumption
  cfg c' h := by cases h; exact hc
  frame f h := by cases h; exact ⟨c, rfl, rfl, rfl⟩
  cause := rfl
  buffers _ := ⟨rfl, fun h => absurd rfl h, rfl, rfl, rfl⟩
theorem pic1_inv : pic1.Inv := inv_showing _ legal1 _ _ _ (by decide) (by decide) (by decide)
theorem pic12_inv : pic12.Inv :=
  inv_showing _ ⟨by decide, by decide, by decide, by decide⟩ _ _ _ (by decide) (by decide) (by decide)
theorem given_inv (s : State) (l : List HostEvent) (h : s.Inv) : (given l s).Inv :=
  ⟨fun p => by have := h.planes p; cases p <;> exact this, h.cfg, h.frame, h.cause,
    fun hf => ⟨(h.buffers hf).rbsp, (h.buffers hf).closed, (h.buffers hf).esc, (h.buffers hf).bufFits,
      (h.buffers hf).escFits⟩⟩
theorem escaped_inv : (escaped [0x80#8] [0x80#8]).Inv where
  planes p := by cases p <;> decide
  cfg c h := by cases h
  frame f h := by cases h
  cause := by decide
  buffers _ := ⟨rfl, fun _ => ⟨rfl, 0x80#8, rfl, by decide⟩, by decide, rfl, rfl⟩

theorem witness_PicpcmPlacesEveryPixel :
    pic12.fault = false ∧ pic12.Inv ∧ pic12.phase = .rbspOpen ∧ pic12.cfg = some spec12 ∧
    pic12.frame = some ⟨1#16, 1#16⟩ ∧ PlanesHold pic12 spec12 ∧ PictureInRange pic12 spec12 ∧
    roomFor pic12.config.bufCap (ceilDiv (pic12.rbsp.bitPos + spec12.picBits pic12.rbsp.used.val) 8) ∧
    spec12.hasPlane .y = true ∧ 15 < Plane.y.tileSide * spec12.mbw ∧ 15 < Plane.y.tileSide * spec12.mbh :=
  ⟨rfl, pic12_inv, rfl, rfl, rfl, pic12_planesHold, pic12_inRange, fun _ h => (by cases h), rfl, by decide,
    by decide⟩

/-- The chroma planes: the one pixel of each, and the last padding position. -/
theorem witness_PicpcmPlacesEveryPixel_chroma :
    pic420.fault = false ∧ pic420.Inv ∧ pic420.phase = .rbspOpen ∧ pic420.cfg = some spec420 ∧
    pic420.frame = some ⟨2#16, 2#16⟩ ∧ PlanesHold pic420 spec420 ∧ PictureInRange pic420 spec420 ∧
    roomFor pic420.config.bufCap (ceilDiv (pic420.rbsp.bitPos + spec420.picBits pic420.rbsp.used.val) 8) ∧
    (∀ p ∈ [Plane.cb, Plane.cr], spec420.hasPlane p = true ∧ 0 < p.tileSide * spec420.mbw ∧
      7 < p.tileSide * spec420.mbw ∧ 7 < p.tileSide * spec420.mbh) :=
  ⟨rfl, inv_showing _ legal420 _ _ _ (by decide) (by decide) (by decide), rfl, rfl, rfl, pic420_planesHold,
    byte_inRange _ _ rfl, fun _ h => (by cases h), by decide⟩

theorem witness_PicpcmIsTheMacroblocksInRasterOrder :
    pic1.fault = false ∧ pic1.Inv ∧ pic1.cfg = some spec1 ∧
    (match exec .picpcm pic1 with
     | .next t => !t.fault
     | _ => false) = true := ⟨rfl, pic1_inv, rfl, by decide +kernel⟩

theorem witness_TwoWritesAreOneWrite :
    State.reset.rbsp.wf = true ∧ State.reset.phase = .rbspOpen ∧ (63#8).toNat + (1#8).toNat ≤ 64 ∧
    (5#64).toNat < 2 ^ (63#8).toNat ∧ (1#64).toNat < 2 ^ (1#8).toNat ∧
    roomFor (bounded 8 0 State.reset).config.bufCap
      (ceilDiv (State.reset.rbsp.bitPos + (63#8).toNat + (1#8).toNat) 8) :=
  ⟨by decide, by decide, by decide, by decide, by decide, roomFor_self _⟩

/-- One performed command for each clause: a longest code, a longest alignment, a whole byte of trailing
bits. -/
theorem witness_AppendedAmounts :
    (∃ t, exec (.ue 0xFFFFFFFE#32) State.reset = .next t ∧ t.fault = false) ∧
    (∃ t, exec .align0 (holding [0x80#8] 1) = .next t ∧ t.fault = false) ∧
    (∃ t, exec .trail State.reset = .next t ∧ t.fault = false) ∧
    (∃ t, exec (.nal 3#2 5#5 true) (escaped [0x80#8] [0x80#8]) = .next t ∧ t.fault = false) ∧
    pic1.cfg = some spec1 ∧ 0 < spec1.nmb :=
  ⟨⟨_, rfl, rfl⟩, ⟨_, rfl, rfl⟩, ⟨_, rfl, rfl⟩, ⟨_, rfl, rfl⟩, rfl, by decide⟩

theorem witness_UeCodeLaws :
    ueBits 3 <+: ueBits 3 ∧ 6 < 7 ∧ [3, 0].flatMap ueBits = [3, 0].flatMap ueBits := by decide

theorem witness_SeCodeLaws : 0 < 1 ∧ (-1 : Int) ≠ 0 := by decide

/-- An inserted byte, also right after a header, and a source that does not end in zero. -/
theorem witness_EscapedFormHasNoStartCode :
    (((escapeMarked 0 [0#8, 0#8, 1#8])[0]?).map Prod.fst = some 0#8 ∧
      ((escapeMarked 0 [0#8, 0#8, 1#8])[1]?).map Prod.fst = some 0#8 ∧
      (escapeMarked 0 [0#8, 0#8, 1#8])[2]? = some (3#8, true)) ∧
    ((0x01#8 ≠ 0#8) ∧ (0x01#8 :: escape [0#8, 0#8, 1#8])[1]? = some 0#8 ∧
      (0x01#8 :: escape [0#8, 0#8, 1#8])[2]? = some 0#8 ∧
      (0x01#8 :: escape [0#8, 0#8, 1#8])[3]? = some 3#8) ∧
    [0#8, 0#8, 1#8].getLast? ≠ some 0#8 := by decide

theorem witness_EscapedLengthBounds : (0x80#8 : Byte) ≠ 0#8 ∧ (0x03#8 : Byte) ≠ 0#8 := by decide

theorem witness_SampleAddressesLieInThePlane :
    65534 < specMax.planeWidth .y ∧ 65534 < specMax.planeHeight .y ∧ 0 < spec420.planeWidth .cb ∧
    0 < spec420.planeHeight .cr := by decide

theorem witness_NalHeaderBytes : (1#5).toNat ∈ [1, 5, 7, 8] ∧ (nalHeader 0#2 1#5).toNat ≤ 3 := by decide

theorem witness_EveryStepKeepsTheInvariant :
    (given [.command 0x20000000000000000000#80] pic1).Inv ∧
    ∃ t, step (given [.command 0x20000000000000000000#80] pic1) = .next t :=
  ⟨given_inv _ _ pic1_inv, _, rfl⟩

theorem witness_CommandsChangeOnlyTheirOwnState :
    (∃ t, exec .trail pic1 = .next t) ∧ (∀ ref ty sc, Instr.trail ≠ .nal ref ty sc) ∧
    (∀ w h d c, Instr.trail ≠ .cfg w h d c) ∧ ∀ a b, Instr.trail ≠ .frame a b :=
  ⟨⟨_, rfl⟩, fun _ _ _ h => (by cases h), fun _ _ _ _ h => (by cases h), fun _ _ h => (by cases h)⟩

theorem witness_PhaseMovesOnlyByItsThreeCommands :
    pic1.fault = false ∧ ∃ t, exec .trail pic1 = .next t ∧ t.fault = false := ⟨rfl, _, rfl, rfl⟩

/-- A step that binds the configuration, and one from a state that has it, with a frame. -/
theorem witness_ConfigurationIsBoundOnce :
    ((given [.command 0x01000000000800110011#80] (escaped [0x80#8] [0x80#8])).Inv ∧
      (escaped [0x80#8] [0x80#8]).cfg = none ∧
      ∃ t, step (given [.command 0x01000000000800110011#80] (escaped [0x80#8] [0x80#8])) = .next t ∧
        t.cfg = some ⟨17#16, 17#16, .eight, .mono400⟩) ∧
    ((given [.command 0x14000000000000000000#80] pic1).Inv ∧
      ¬ PresentsReset (given [.command 0x14000000000000000000#80] pic1) ∧ pic1.cfg = some spec1 ∧
      ∃ t, step (given [.command 0x14000000000000000000#80] pic1) = .next t ∧ t.frame = some ⟨1#16, 1#16⟩) :=
  ⟨⟨given_inv _ _ escaped_inv, rfl, _, rfl, rfl⟩,
    given_inv _ _ pic1_inv, not_presentsReset _ _, rfl, _, rfl, rfl⟩

theorem witness_OutIsTheUnitsOfTheAcceptedNals :
    ∃ t, Sys2Proof.core.run 1 (given [.command 0x30680000000000000001#80] (escaped [0x80#8] [0x80#8])) =
      .next t := ⟨_, rfl⟩

theorem witness_EveryDeliveredUnitIsWellFormed :
    (given [.command 0x30680000000000000001#80] (escaped [0x80#8] [0x80#8])).Inv ∧
    (∃ t, Sys2Proof.core.run 1 (given [.command 0x30680000000000000001#80] (escaped [0x80#8] [0x80#8])) =
      .next t) ∧
    [0#8, 0#8, 0#8, 1#8, 0x68#8, 0x80#8] ∈
      deliveries 1 (given [.command 0x30680000000000000001#80] (escaped [0x80#8] [0x80#8])) :=
  ⟨given_inv _ _ escaped_inv, ⟨_, rfl⟩, by decide⟩

/-- A performed command and a faulting one. -/
theorem witness_OnlyTheRasterizerReadsFrameMemory :
    (∀ a b, Instr.trail ≠ .frame a b) ∧ (∀ a b, Instr.trail ≠ .mbpcm a b) ∧ Instr.trail ≠ .picpcm ∧
    (∃ t, exec .trail pic1 = .next t ∧ t.fault = false) ∧
    (∃ t, exec .epb pic1 = .next t ∧ t.fault = true) ∧ (∀ a b, Instr.epb ≠ .frame a b) ∧
    (∀ a b, Instr.epb ≠ .mbpcm a b) ∧ Instr.epb ≠ .picpcm :=
  ⟨fun _ _ h => (by cases h), fun _ _ h => (by cases h), by decide, ⟨_, rfl, rfl⟩, ⟨_, rfl, rfl⟩,
    fun _ _ h => (by cases h), fun _ _ h => (by cases h), by decide⟩

/-- The stop is reached: a plane that the host emptied after `FRAME` (20_memory.md R45). -/
theorem test_short_plane_stops :
    (match exec (.mbpcm 0#16 0#16) { pic1 with pixY := Memory.empty } with
     | .fault r => r == .outOfPlaneRead
     | _ => false) = true := by decide +kernel

end Sys2Proof.Tests
end

section
/-! PROOFS. The state (10_state.md): what a command may do to the state and what a step may do, each said
once, and from them the invariant, the frame all commands share, the phase and the configuration. -/

namespace Sys2Proof.Machine

/-! ## The bytes of the buffer under alignment and the trailing bit -/

@[simp] theorem bitInByte_false (k : Nat) : bitInByte false k = 0#8 := by simp [bitInByte]

theorem bitInByte_true_ne_zero (k : Fin 8) : bitInByte true k.val ≠ 0#8 := by revert k; decide

/-- Zero bits up to the boundary complete the partial byte and leave its value. -/
theorem spill_zeros_to_boundary (acc : Byte) (n k : Nat) (h : k + (n + 1) = 8) :
    spill acc k (List.replicate (n + 1) false) = [acc] := by
  induction n generalizing k with
  | zero =>
    obtain rfl : k = 7 := by omega
    simp [spill]
  | succ n ih =>
    have hk : k ≠ 7 := by omega
    rw [List.replicate_succ]
    simp [spill, hk, ih (k + 1) (by omega)]

/-- `align_zero()` changes no byte (40_bitwriter.md R104). -/
theorem BitBuffer.buf_alignZero {s : BitBuffer} (h : s.wf = true) : s.alignZero.buf = s.buf := by
  rcases BitBuffer.wf_cases h with h0 | ⟨h0, init, x, hb, _⟩
  · simp [BitBuffer.alignZero, BitBuffer.appendBits, alignmentZeros, h0, spill]
  · have hn : (8 - s.used.val % 8) % 8 = 7 - s.used.val + 1 := by
      have := s.used.isLt
      have : s.used.val ≠ 0 := fun hv => h0 (Fin.ext hv)
      omega
    have hs := spill_zeros_to_boundary x (7 - s.used.val) s.used.val (by omega)
    simp [BitBuffer.alignZero, BitBuffer.appendBits, alignmentZeros, h0, hb, hn, hs]

/-- One more bit takes a new byte exactly when the buffer is aligned. -/
theorem BitBuffer.length_buf_appendBit {s : BitBuffer} (b : Bool) (h : s.wf = true) :
    (s.appendBit b).buf.length = if s.used = 0 then s.buf.length + 1 else s.buf.length := by
  rcases BitBuffer.wf_cases h with h0 | ⟨h0, init, x, hb, _⟩
  · simp [s.appendBit_of_used_zero b h0, h0]
  · simp [s.appendBit_of_partial b h0 hb, h0, hb]

/-- The byte a one bit is written into is not zero. -/
theorem BitBuffer.getLast?_appendBit_true {s : BitBuffer} (h : s.wf = true) :
    ∃ x, (s.appendBit true).buf.getLast? = some x ∧ x ≠ 0x00#8 := by
  rcases BitBuffer.wf_cases h with h0 | ⟨h0, init, x, hb, _⟩
  · exact ⟨bitInByte true 0, by simp [s.appendBit_of_used_zero true h0], by decide⟩
  · refine ⟨x ||| bitInByte true s.used.val, by simp [s.appendBit_of_partial true h0 hb], fun hx => ?_⟩
    exact bitInByte_true_ne_zero s.used (BitVec.or_eq_zero_iff.mp hx).2

/-- The bytes `TRAIL` leaves are those of its one bit: the alignment adds none (42_rbsp.md R141). -/
theorem BitBuffer.buf_trail {s : BitBuffer} (h : s.wf = true) :
    (s.appendBits [true]).alignZero.buf = (s.appendBit true).buf := by
  have hw := s.wf_appendBit true h
  rw [s.appendBits_cons true [] h, BitBuffer.appendBits_nil _ hw, BitBuffer.buf_alignZero hw]

/-! ## What may come to stand in `BUF` -/

/-- `b` can replace `BUF` and `USED`: it keeps the invariant of 10_state.md R12 and the capacity (20_memory.md
R53), where the present buffer has them. -/
def State.KeepsBuffer (s : State) (b : BitBuffer) : Prop :=
  s.rbsp.wf = true → capacityHolds s.config.bufCap s.rbsp.buf.length = true →
    b.wf = true ∧ capacityHolds s.config.bufCap b.buf.length = true

/-- The capacity check of `m` bits is the one the bytes of the longer buffer need (40_bitwriter.md R107). -/
theorem capacityHolds_of_bitsFit {s : State} {b : BitBuffer} {m : Nat} (hfit : s.bitsFit m = true)
    (hw : b.wf = true) (hp : b.bitPos = s.rbsp.bitPos + m) :
    capacityHolds s.config.bufCap b.buf.length = true := by
  rwa [BitBuffer.length_buf hw, hp]

theorem keepsBuffer_appendBits {s : State} (l : List Bool) (hfit : s.bitsFit l.length = true) :
    s.KeepsBuffer (s.rbsp.appendBits l) := fun h _ =>
  have hw := s.rbsp.wf_appendBits l h
  ⟨hw, capacityHolds_of_bitsFit hfit hw (s.rbsp.bitPos_appendBits l h)⟩

theorem keepsBuffer_alignZero (s : State) : s.KeepsBuffer s.rbsp.alignZero := fun h hcap =>
  ⟨s.rbsp.wf_alignZero, by rwa [BitBuffer.buf_alignZero h]⟩

theorem keepsBuffer_trail {s : State} (hfit : s.trailFits = true) :
    s.KeepsBuffer (s.rbsp.appendBits [true]).alignZero := fun h hcap => by
  refine ⟨BitBuffer.wf_alignZero _, ?_⟩
  rw [BitBuffer.buf_trail h, BitBuffer.length_buf_appendBit true h]
  split
  · next h0 => simpa [State.trailFits, BitBuffer.aligned, h0] using hfit
  · exact hcap

theorem keepsBuffer_mbPcm {s : State} {c : FrameSpec} {mb : Nat × Nat} {l : List Nat}
    (hl : s.mbSamples c mb = some l) (hfit : s.bitsFit (c.mbBits s.rbsp.used.val) = true) :
    s.KeepsBuffer (s.rbsp.mbPcm c.depth l) := fun h _ =>
  have hw := s.rbsp.wf_mbPcm c.depth l h
  ⟨hw, capacityHolds_of_bitsFit hfit hw (s.rbsp.bitPos_mbPcm c h (length_mbSamples hl))⟩

/-- Every macroblock read has the samples of its format. -/
theorem length_of_mem_mbSamples {s : State} {c : FrameSpec} {mbs : List (Nat × Nat)}
    {ls : List (List Nat)} (h : collect (s.mbSamples c) mbs = some ls) :
    ∀ l ∈ ls, l.length = 256 + 128 * c.chroma.code := fun l hl => by
  have hmem : some l ∈ mbs.map (s.mbSamples c) := by
    rw [collect_some_iff.mp h]
    exact List.mem_map_of_mem hl
  obtain ⟨mb, -, hmb⟩ := List.mem_map.mp hmem
  exact length_mbSamples hmb

/-- A picture without macroblocks leaves the buffer; any other adds the bits `PICPCM` has counted. -/
theorem keepsBuffer_picture {s : State} {c : FrameSpec} {ls : List (List Nat)}
    (hls : collect (s.mbSamples c) c.mbOrder = some ls)
    (hfit : s.bitsFit (c.picBits s.rbsp.used.val) = true) :
    s.KeepsBuffer (ls.foldl (fun b l => b.mbPcm c.depth l) s.rbsp) := fun h hcap => by
  have hw := BitBuffer.wf_foldl_mbPcm c.depth ls h
  refine ⟨hw, ?_⟩
  cases ls with
  | nil => exact hcap
  | cons l ls =>
    have hn : c.nmb - 1 = ls.length := by
      rw [← length_mbOrder, ← collect_length hls, List.length_cons, Nat.add_sub_cancel]
    refine capacityHolds_of_bitsFit hfit hw ?_
    rw [BitBuffer.bitPos_foldl_cons_mbPcm c l ls h (length_of_mem_mbSamples hls), FrameSpec.picBits, hn]

/-! ## What a performed command does -/

theorem toNat_of_depthOf {d : BitVec 8} {d' : BitDepth} (h : depthOf d = some d') :
    d.toNat = d'.bits := by
  unfold depthOf at h
  split at h
  · next hd => cases h; rw [hd]; rfl
  · split at h
    · next hd => cases h; rw [hd]; rfl
    · cases h

theorem toNat_of_chromaOf {k : BitVec 8} {k' : Chroma} (h : chromaOf k = some k') :
    k.toNat = k'.code := by
  unfold chromaOf at h
  split at h
  · next hk => cases h; rw [hk]; rfl
  · split at h
    · next hk => cases h; rw [hk]; rfl
    · cases h

/-- The seven things a performed command can do to the state, but for its answer. The first two are shared by
several commands; which of them appends what is said by that command's own lemma (`execU_next` and the
others). -/
inductive Effect : Instr → State → State → Prop where
  /-- A query changes nothing. -/
  | query (i : Instr) (s : State) : Effect i s s
  /-- Bits are appended in phase `OPEN`. -/
  | append (i : Instr) {s : State} {b : BitBuffer} (open_ : s.phase = .rbspOpen)
      (keeps : s.KeepsBuffer b) : Effect i s { s with rbsp := b }
  /-- `CFG` binds a legal configuration with the fields of its operands. -/
  | bind {s : State} {c : FrameSpec} {d k : BitVec 8} (unbound : s.cfg = none) (legal : c.Legal)
      (depth : d.toNat = c.depth.bits) (chroma : k.toNat = c.chroma.code) :
      Effect (.cfg c.width c.height d k) s { s with cfg := some c }
  /-- `FRAME` declares a frame of the configured size. -/
  | declare {s : State} {c : FrameSpec} (bound : s.cfg = some c) :
      Effect (.frame c.width c.height) s { s with frame := some ⟨c.width, c.height⟩ }
  /-- `TRAIL` closes the RBSP. -/
  | close {s : State} (open_ : s.phase = .rbspOpen) (fits : s.trailFits = true) :
      Effect .trail s { s with rbsp := (s.rbsp.appendBits [true]).alignZero, phase := .trailed }
  /-- `EPB` fills the escaped buffer. -/
  | fill {s : State} (trailed : s.phase = .trailed)
      (fits : s.escapedFits (escape s.rbsp.buf).length = true) :
      Effect .epb s { s with esc := escape s.rbsp.buf, phase := .escaped }
  /-- `NAL` delivers a unit and empties the buffers. -/
  | deliver {s : State} (ref : BitVec 2) (ty : BitVec 5) (sc : Bool) (unit : List Byte)
      (escaped : s.phase = .escaped) :
      Effect (.nal ref ty sc) s
        { s with out := s.out ++ unit, rbsp := BitBuffer.empty, esc := [], phase := .rbspOpen }

/-- A command is performed: its effect, then the answer with `STATUS` 0 (30_encoding.md R73). -/
def Performs (i : Instr) (s t : State) : Prop := ∃ u r, Effect i s u ∧ t = u.answer 0#8 r

theorem Outcomes.imp {s t : State} {p q : Prop} (h : Outcomes s t p) (hpq : p → q) : Outcomes s t q :=
  Or.imp_right (And.imp_right (Or.imp_right hpq)) h

/-- `CFG` binds exactly what its operands say (45_config.md R211 to R213). -/
theorem execCfg_performs {w h : BitVec 16} {d k : BitVec 8} {s t : State}
    (he : execCfg w h d k s = .next t) : Outcomes s t (Performs (.cfg w h d k) s t) :=
  (execCfg_next he).imp fun ⟨hn, d', k', hd, hk, hw, hh, hdk, heven, ht⟩ =>
    have legal : (FrameSpec.mk w h d' k').Legal :=
      { width := hw
        height := hh
        depthChroma := hdk
        even := fun hy => by
          simp only [not_and, not_or] at heven
          obtain ⟨hw2, hh2⟩ := heven hy
          exact ⟨Nat.mod_two_ne_one.mp hw2, Nat.mod_two_ne_one.mp hh2⟩ }
    ⟨_, _, Effect.bind hn legal (toNat_of_depthOf hd) (toNat_of_chromaOf hk), ht⟩

/-- All a command can do: it is refused in the faulted state, takes a fault, or has one of the effects. -/
theorem exec_next {i : Instr} {s t : State} (h : exec i s = .next t) :
    Outcomes s t (Performs i s t) := by
  cases i with
  | cfg w h' d k => exact execCfg_performs h
  | frame fw fh =>
    refine (execFrame_next h).imp ?_
    rintro ⟨c, hc, rfl, rfl, -, ht⟩
    exact ⟨_, _, .declare hc, ht⟩
  | u n v =>
    exact (execU_next h).imp fun ⟨_, hp, _, hfit, ht⟩ =>
      ⟨_, _, .append _ hp (keepsBuffer_appendBits _ (by rwa [length_msbFirst])), ht⟩
  | ue v =>
    exact (execUe_next h).imp fun ⟨hp, _, hfit, ht⟩ =>
      ⟨_, _, .append _ hp (keepsBuffer_appendBits _ (by rwa [length_ueBits])), ht⟩
  | se v =>
    exact (execSe_next h).imp fun ⟨hp, _, hfit, ht⟩ =>
      ⟨_, _, .append _ hp (keepsBuffer_appendBits _ (by rwa [seBits, length_ueBits])), ht⟩
  | align0 =>
    exact (execAlign0_next h).imp fun ⟨hp, ht⟩ =>
      ⟨_, _, .append _ hp (keepsBuffer_alignZero s), ht⟩
  | bitpos => exact (execBitpos_next h).imp fun ht => ⟨_, _, .query _ s, ht⟩
  | aligned => exact (execAligned_next h).imp fun ht => ⟨_, _, .query _ s, ht⟩
  | trail => exact (execTrail_next h).imp fun ⟨hp, hfit, ht⟩ => ⟨_, _, .close hp hfit, ht⟩
  | epb => exact (execEpb_next h).imp fun ⟨hp, hfit, ht⟩ => ⟨_, _, .fill hp hfit, ht⟩
  | nal ref ty sc =>
    exact (execNal_next h).imp fun ⟨_, hp, _, _, ht⟩ => ⟨_, _, .deliver ref ty sc _ hp, ht⟩
  | mbpcm x y =>
    exact (execMbpcm_next h).imp fun ⟨_, _, _, _, _, hp, _, _, hl, _, hfit, ht⟩ =>
      ⟨_, _, .append _ hp (keepsBuffer_mbPcm hl hfit), ht⟩
  | picpcm =>
    exact (execPicpcm_next h).imp fun ⟨_, _, _, _, _, hp, hls, _, hfit, ht⟩ =>
      ⟨_, _, .append _ hp (keepsBuffer_picture hls hfit), ht⟩

/-! ## What a step does -/

/-- A word that is no command is refused in the faulted state, or raises `IllegalCommand`. -/
theorem illegalWord_next {s t : State} (h : illegalWord s = .next t) : Outcomes s t False :=
  outcomes_of_body h fun hb => .inl ⟨.illegalCommand, by simpa using hb.symm⟩

theorem step_of_decode_ok {s : State} {w : CommandWord} {rest : List HostEvent} {i : Instr}
    (hin : s.input = .command w :: rest) (hd : decode w = .ok i) :
    step s = exec i { s with input := rest } := by
  simp [step, State.takeInput_cons hin, hd]

theorem step_of_decode_error {s : State} {w : CommandWord} {rest : List HostEvent} {e : DecodeError}
    (hin : s.input = .command w :: rest) (hd : decode w = .error e) :
    step s = illegalWord { s with input := rest } := by
  simp [step, State.takeInput_cons hin, hd]

/-- What one step can be, by the item it takes from the port (20_memory.md R54). -/
inductive StepTo (s : State) : State → Prop where
  | idle (idle : s.input = []) : StepTo s s
  | command {w : CommandWord} {rest : List HostEvent} {i : Instr} {t : State}
      (input : s.input = .command w :: rest) (decodes : decode w = .ok i)
      (outcome : Outcomes { s with input := rest } t (Performs i { s with input := rest } t)) : StepTo s t
  | illegal {w : CommandWord} {rest : List HostEvent} {t : State}
      (input : s.input = .command w :: rest) (outcome : Outcomes { s with input := rest } t False) :
      StepTo s t
  | load {p : Plane} {bytes : List Byte} {rest : List HostEvent} (input : s.input = .load p bytes :: rest) :
      StepTo s (State.loadPlane { s with input := rest } p bytes)
  | sinkAnswer {ok : Bool} {rest : List HostEvent} (input : s.input = .sinkAnswer ok :: rest) :
      StepTo s { s with input := rest, sinkOk := ok }
  | reset {rest : List HostEvent} (input : s.input = .reset :: rest) :
      StepTo s (State.afterReset { s with input := rest })

theorem step_next {s t : State} (h : step s = .next t) : StepTo s t := by
  cases hin : s.input with
  | nil =>
    obtain rfl : s = t := by simpa [step, State.takeInput_nil hin] using h
    exact .idle hin
  | cons e rest =>
    cases e with
    | command w =>
      cases hd : decode w with
      | ok i => exact .command hin hd (exec_next (step_of_decode_ok hin hd ▸ h))
      | error e => exact .illegal hin (illegalWord_next (step_of_decode_error hin hd ▸ h))
    | load p bytes =>
      obtain rfl : _ = t := by simpa [step, State.takeInput_cons hin] using h
      exact .load hin
    | sinkAnswer ok =>
      obtain rfl : _ = t := by simpa [step, State.takeInput_cons hin] using h
      exact .sinkAnswer hin
    | reset =>
      obtain rfl : _ = t := by simpa [step, State.takeInput_cons hin] using h
      exact .reset hin

/-! ## The invariant -/

theorem capacityHolds_zero (cap : Option Nat) : capacityHolds cap 0 = true := by
  cases cap <;> simp [capacityHolds]

/-- Empty buffers in phase `OPEN`, as reset and `NAL` leave them, are in order whatever the capacities. -/
theorem buffersOk_of_empty {s : State} (hr : s.rbsp = BitBuffer.empty) (hp : s.phase = .rbspOpen)
    (he : s.esc = []) : s.BuffersOk where
  rbsp := by rw [hr]; rfl
  closed := fun h => absurd hp h
  esc := by simp [he, hp]
  bufFits := by rw [hr]; exact capacityHolds_zero _
  escFits := by rw [he]; exact capacityHolds_zero _

/-- The buffers' part of the invariant reads only the buffers, the phase and the capacities. -/
theorem State.BuffersOk.of_eq {s t : State} (h : s.BuffersOk) (hr : t.rbsp = s.rbsp)
    (hp : t.phase = s.phase) (he : t.esc = s.esc) (hc : t.config = s.config) : t.BuffersOk where
  rbsp := hr ▸ h.rbsp
  closed := by rw [hr, hp]; exact h.closed
  esc := by rw [hr, hp, he]; exact h.esc
  bufFits := by rw [hr, hc]; exact h.bufFits
  escFits := by rw [he, hc]; exact h.escFits

theorem State.Inv.answer {s : State} (h : s.Inv) (c : BitVec 8) (r : BitVec 64) : (s.answer c r).Inv where
  planes := by simpa using h.planes
  cfg := h.cfg
  frame := h.frame
  cause := h.cause
  buffers := fun hf => (h.buffers hf).of_eq rfl rfl rfl rfl

/-- The codes of the causes are 1 to 8 (60_exceptions.md R250). -/
theorem Cause.code_bounds (c : Cause) : 1 ≤ c.code.toNat ∧ c.code.toNat ≤ 8 := by
  cases c <;> decide

theorem State.Inv.raised {s : State} (h : s.Inv) (c : Cause) : (s.raised c).Inv where
  planes := by simpa using h.planes
  cfg := h.cfg
  frame := h.frame
  cause := c.code_bounds
  buffers := fun hf => by simp at hf

/-- The invariant reads neither the port nor the sink's line. -/
theorem State.Inv.withInputs {s : State} (h : s.Inv) (rest : List HostEvent) (ok : Bool) :
    State.Inv { s with input := rest, sinkOk := ok } where
  planes := h.planes
  cfg := h.cfg
  frame := h.frame
  cause := h.cause
  buffers := fun hf => (h.buffers hf).of_eq rfl rfl rfl rfl

theorem State.Inv.loadPlane {s : State} (h : s.Inv) (p : Plane) (bytes : List Byte) :
    (s.loadPlane p bytes).Inv where
  planes := s.loadPlane_wf p bytes h.planes
  cfg := by simpa using h.cfg
  frame := by simpa using h.frame
  cause := by simpa using h.cause
  buffers := fun hf => (h.buffers (by simpa using hf)).of_eq (by simp) (by simp) (by simp) (by simp)

/-- Reset meets the invariant whatever came before it (70_reset_and_hazards.md R280). -/
theorem inv_afterReset (s : State) : s.afterReset.Inv where
  planes := fun p => by simpa using Memory.wf_empty
  cfg := fun _ h => nomatch h
  frame := fun _ h => nomatch h
  cause := rfl
  buffers := fun _ => buffersOk_of_empty rfl rfl rfl

/-- `TRAIL` leaves a closed RBSP that ends in the byte of its one bit (42_rbsp.md R142). -/
theorem buffersOk_close {s : State} (h : s.BuffersOk) (hp : s.phase = .rbspOpen)
    (hfit : s.trailFits = true) :
    State.BuffersOk { s with rbsp := (s.rbsp.appendBits [true]).alignZero, phase := .trailed } where
  rbsp := BitBuffer.wf_alignZero _
  closed := fun _ => ⟨BitBuffer.used_alignZero _, by
    simpa only [BitBuffer.buf_trail h.rbsp] using BitBuffer.getLast?_appendBit_true h.rbsp⟩
  esc := by simpa [hp] using h.esc
  bufFits := (keepsBuffer_trail hfit h.rbsp h.bufFits).2
  escFits := h.escFits

/-- `EPB` fills `ESC` from the closed RBSP, which stays (42_rbsp.md R143). -/
theorem buffersOk_fill {s : State} (h : s.BuffersOk) (hp : s.phase = .trailed)
    (hfit : s.escapedFits (escape s.rbsp.buf).length = true) :
    State.BuffersOk { s with esc := escape s.rbsp.buf, phase := .escaped } where
  rbsp := h.rbsp
  closed := fun _ => h.closed (by simp [hp])
  esc := rfl
  bufFits := h.bufFits
  escFits := hfit

/-- In phase `OPEN` the invariant asks of `BUF` only what appending keeps. -/
theorem buffersOk_append {s : State} {b : BitBuffer} (h : s.BuffersOk) (hp : s.phase = .rbspOpen)
    (hb : s.KeepsBuffer b) : State.BuffersOk { s with rbsp := b } where
  rbsp := (hb h.rbsp h.bufFits).1
  closed := fun hne => absurd hp hne
  esc := by simpa [hp] using h.esc
  bufFits := (hb h.rbsp h.bufFits).2
  escFits := h.escFits

/-- Each of the seven effects keeps the invariant. -/
theorem Effect.inv {i : Instr} {s u : State} (he : Effect i s u) (h : s.Inv) : u.Inv := by
  cases he with
  | query => exact h
  | append _ hp hb => exact { h with buffers := fun hf => buffersOk_append (h.buffers hf) hp hb }
  | bind hn legal _ _ =>
    refine { planes := h.planes, cfg := ?_, frame := ?_, cause := h.cause, buffers := ?_ }
    · rintro c ⟨⟩
      exact legal
    · intro f hf
      obtain ⟨c, hc, -⟩ := h.frame f hf
      rw [hn] at hc
      cases hc
    · exact fun hf => (h.buffers hf).of_eq rfl rfl rfl rfl
  | declare hc =>
    refine { planes := h.planes, cfg := h.cfg, frame := ?_, cause := h.cause, buffers := ?_ }
    · rintro f ⟨⟩
      exact ⟨_, hc, rfl, rfl⟩
    · exact fun hf => (h.buffers hf).of_eq rfl rfl rfl rfl
  | close hp hfit => exact { h with buffers := fun hf => buffersOk_close (h.buffers hf) hp hfit }
  | fill hp hfit => exact { h with buffers := fun hf => buffersOk_fill (h.buffers hf) hp hfit }
  | deliver => exact { h with buffers := fun _ => buffersOk_of_empty rfl rfl rfl }

theorem Performs.inv {i : Instr} {s t : State} (hp : Performs i s t) (h : s.Inv) : t.Inv := by
  obtain ⟨u, r, he, rfl⟩ := hp
  exact (he.inv h).answer _ _

/-- Refusing and faulting keep the invariant, so a command keeps it where performing it does. -/
theorem Outcomes.inv {s t : State} {performed : Prop} (ho : Outcomes s t performed) (h : s.Inv)
    (hp : performed → t.Inv) : t.Inv := by
  rcases ho with ⟨-, rfl⟩ | ⟨-, ⟨c, rfl⟩ | hperf⟩
  · exact h.answer _ _
  · exact h.raised c
  · exact hp hperf

theorem StepTo.inv {s t : State} (hst : StepTo s t) (h : s.Inv) : t.Inv := by
  cases hst with
  | idle => exact h
  | @command _ rest _ _ _ _ ho =>
    have htaken := h.withInputs rest s.sinkOk
    exact ho.inv htaken fun hp => hp.inv htaken
  | illegal _ ho => exact ho.inv (h.withInputs _ s.sinkOk) False.elim
  | load => exact (h.withInputs _ s.sinkOk).loadPlane _ _
  | sinkAnswer => exact h.withInputs _ _
  | reset => exact inv_afterReset _

/-! ## The configuration -/

/-- Of the effects only that of `CFG` touches the configuration, and only where none is bound. -/
theorem Effect.cfg {i : Instr} {s u : State} (he : Effect i s u) :
    u.cfg = s.cfg ∨ s.cfg = none ∧ ∃ c d k, u.cfg = some c ∧ i = .cfg c.width c.height d k ∧
      d.toNat = c.depth.bits ∧ k.toNat = c.chroma.code := by
  cases he with
  | bind hn _ hd hk => exact .inr ⟨hn, _, _, _, rfl, rfl, hd, hk⟩
  | query => exact .inl rfl
  | append => exact .inl rfl
  | declare => exact .inl rfl
  | close => exact .inl rfl
  | fill => exact .inl rfl
  | deliver => exact .inl rfl

/-- A step that is no reset keeps the configuration, or binds the one of the presented `CFG` word. -/
theorem StepTo.cfg {s t : State} (hst : StepTo s t) (hr : ¬ Claims.PresentsReset s) :
    t.cfg = s.cfg ∨ s.cfg = none ∧ ∃ c w d k, t.cfg = some c ∧ Claims.Presents s w ∧
      decode w = .ok (.cfg c.width c.height d k) ∧ d.toNat = c.depth.bits ∧
      k.toNat = c.chroma.code := by
  cases hst with
  | idle => exact .inl rfl
  | command hin hd ho =>
    rcases ho with ⟨-, rfl⟩ | ⟨-, ⟨c, rfl⟩ | ⟨u, r, he, rfl⟩⟩
    · exact .inl rfl
    · exact .inl rfl
    · rcases he.cfg with hsame | ⟨hn, c, d, k, hc, rfl, hdepth, hchroma⟩
      · exact .inl hsame
      · exact .inr ⟨hn, c, _, d, k, hc, ⟨_, hin⟩, hd, hdepth, hchroma⟩
  | illegal _ ho =>
    rcases ho with ⟨-, rfl⟩ | ⟨-, ⟨c, rfl⟩ | hfalse⟩
    · exact .inl rfl
    · exact .inl rfl
    · exact hfalse.elim
  | load => exact .inl (by simp)
  | sinkAnswer => exact .inl rfl
  | reset hin => exact absurd ⟨_, hin⟩ hr

/-! ## The frame all commands share -/

/-- Frame memory, the parameters and the port stay, and `OUT`, the configuration and the frame
descriptor but for the one command that owns each (10_state.md R15, R16, R20, R21). -/
structure CommandFrame (i : Instr) (s t : State) : Prop where
  planes : ∀ p, t.plane p = s.plane p
  config : t.config = s.config
  sinkOk : t.sinkOk = s.sinkOk
  input : t.input = s.input
  out : (∀ ref ty sc, i ≠ .nal ref ty sc) → t.out = s.out
  cfg : (∀ w h d c, i ≠ .cfg w h d c) → t.cfg = s.cfg
  frame : (∀ a b, i ≠ .frame a b) → t.frame = s.frame

theorem CommandFrame.refl (i : Instr) (s : State) : CommandFrame i s s :=
  ⟨fun _ => rfl, rfl, rfl, rfl, fun _ => rfl, fun _ => rfl, fun _ => rfl⟩

/-- An answer touches `RES` and the response only. -/
theorem CommandFrame.answer {i : Instr} {s t : State} (h : CommandFrame i s t) (c : BitVec 8)
    (r : BitVec 64) : CommandFrame i s (t.answer c r) :=
  { h with planes := by simpa using h.planes }

/-- Fault entry touches `FAULT`, `CAUSE`, `RES` and the response only (60_exceptions.md R254). -/
theorem CommandFrame.raised {i : Instr} {s t : State} (h : CommandFrame i s t) (c : Cause) :
    CommandFrame i s (t.raised c) :=
  { h with planes := by simpa using h.planes }

theorem Effect.commandFrame {i : Instr} {s u : State} (he : Effect i s u) : CommandFrame i s u := by
  have keep := CommandFrame.refl i s
  cases he with
  | query => exact keep
  | append => exact { keep with }
  | bind => exact { keep with cfg := fun h => absurd rfl (h _ _ _ _) }
  | declare => exact { keep with frame := fun h => absurd rfl (h _ _) }
  | close => exact { keep with }
  | fill => exact { keep with }
  | deliver => exact { keep with out := fun h => absurd rfl (h _ _ _) }

theorem exec_commandFrame {i : Instr} {s t : State} (h : exec i s = .next t) : CommandFrame i s t := by
  rcases exec_next h with ⟨-, rfl⟩ | ⟨-, ⟨c, rfl⟩ | ⟨u, r, he, rfl⟩⟩
  · exact (CommandFrame.refl i s).answer _ _
  · exact (CommandFrame.refl i s).raised c
  · exact he.commandFrame.answer _ _

end Sys2Proof.Machine

namespace Sys2Proof.Proofs

open Sys2Proof.Machine Sys2Proof.Claims

/-! ## The obligations -/

/-- Settles O38: every kind of step keeps the invariant, a command by its outcomes and effects. -/
theorem everyStepKeepsTheInvariant : Obligations.EveryStepKeepsTheInvariant :=
  fun _ _ hs h => (step_next h).inv hs

/-- Settles O39, from the frame each effect keeps. -/
theorem commandsChangeOnlyTheirOwnState : Obligations.CommandsChangeOnlyTheirOwnState := by
  intro i s t h
  obtain ⟨planes, config, sinkOk, input, out, cfg, frame⟩ := exec_commandFrame h
  exact ⟨fun p a => by rw [planes p]; exact ⟨rfl, rfl⟩, config, sinkOk, input, out, cfg, frame⟩

/-- Settles O40: of the seven effects three move the phase, each from its own phase. -/
theorem phaseMovesOnlyByItsThreeCommands : Obligations.PhaseMovesOnlyByItsThreeCommands := by
  intro i s t hs h ht
  rcases exec_next h with ⟨hf, -⟩ | ⟨-, ⟨c, rfl⟩ | ⟨u, r, he, rfl⟩⟩
  · simp [hs] at hf
  · simp at ht
  · cases he with
    | close hp => exact .inr (.inl ⟨rfl, hp, rfl⟩)
    | fill hp => exact .inr (.inr (.inl ⟨rfl, hp, rfl⟩))
    | deliver ref ty sc _ hp => exact .inr (.inr (.inr ⟨⟨ref, ty, sc, rfl⟩, hp, rfl⟩))
    | query => exact .inl rfl
    | append => exact .inl rfl
    | bind => exact .inl rfl
    | declare => exact .inl rfl

/-- Settles O41: what a step does to the configuration, and the invariant of the next state. -/
theorem configurationIsBoundOnce : Obligations.ConfigurationIsBoundOnce := by
  intro s t hs h hr
  have hst := step_next h
  have ht := hst.inv hs
  refine ⟨fun c hc => ?_, fun c hn hc => ⟨ht.cfg c hc, ?_⟩, ht.frame⟩
  · rcases hst.cfg hr with hsame | ⟨hn, -⟩
    · exact hsame.trans hc
    · simp [hc] at hn
  · rcases hst.cfg hr with hsame | ⟨-, c', w, d, k, hc', hw⟩
    · simp [hsame, hn] at hc
    · obtain rfl : c' = c := Option.some.inj (hc'.symm.trans hc)
      exact ⟨w, d, k, hw⟩

/-- Settles O5: the equation of `step` for a word that decodes. -/
theorem stepExecutesTheDecodedCommand : Obligations.StepExecutesTheDecodedCommand :=
  fun _ _ _ _ hin hd => step_of_decode_ok hin hd

/-- Settles O37: the state at reset is what the reset event leaves of it. -/
theorem resetMeetsTheInvariant : Obligations.ResetMeetsTheInvariant := inv_afterReset State.reset

end Sys2Proof.Proofs
end

section
/-! PROOFS. Frame memory (20_memory.md): the addresses of the samples and the planes they lie in, the one
stop a read can be, the host's load, and how many bits each command adds to `BUF`. -/

namespace Sys2Proof.Machine

/-! ## Sample addresses (20_memory.md R43, R44) -/

theorem FrameSpec.bps_bounds (c : FrameSpec) : 1 ≤ c.bps ∧ c.bps ≤ 2 := by
  unfold FrameSpec.bps
  cases c.depth <;> decide

theorem FrameSpec.planeWidth_lt (c : FrameSpec) (p : Plane) : c.planeWidth p < 2 ^ 16 := by
  have := c.width.isLt
  cases p <;> simp only [FrameSpec.planeWidth] <;> omega

theorem FrameSpec.planeHeight_lt (c : FrameSpec) (p : Plane) : c.planeHeight p < 2 ^ 16 := by
  have := c.height.isLt
  cases p <;> simp only [FrameSpec.planeHeight] <;> omega

theorem FrameSpec.planeBytes_lt (c : FrameSpec) (p : Plane) : c.planeBytes p < 2 ^ 33 := by
  have hsamples := Nat.mul_le_mul (c.planeWidth_lt p).le (Nat.le_pred_of_lt (c.planeHeight_lt p))
  calc c.planeBytes p ≤ 2 ^ 16 * (2 ^ 16 - 1) * 2 := Nat.mul_le_mul hsamples c.bps_bounds.2
    _ < 2 ^ 33 := by decide

/-- Row by row, position `(x, y)` comes before the end of the `h` rows. -/
theorem rowMajor_lt {w h x y : Nat} (hx : x < w) (hy : y < h) : y * w + x < w * h :=
  calc y * w + x < (y + 1) * w := by rw [Nat.succ_mul]; omega
    _ ≤ w * h := by rw [Nat.mul_comm w]; exact Nat.mul_le_mul_right w hy

/-- Row by row, two positions inside the rows have two numbers. -/
theorem rowMajor_inj {w x y x' y' : Nat} (hx : x < w) (hx' : x' < w)
    (h : y' * w + x' = y * w + x) : x' = x ∧ y' = y := by
  have hxx : x' = x := by
    simpa [Nat.mod_eq_of_lt hx, Nat.mod_eq_of_lt hx'] using congrArg (· % w) h
  subst hxx
  exact ⟨rfl, Nat.eq_of_mul_eq_mul_right (Nat.zero_lt_of_lt hx) (Nat.add_right_cancel h)⟩

/-- Every byte of an in-picture sample lies inside a plane of the configured length. -/
theorem FrameSpec.sampleAddress_add_bps_le {c : FrameSpec} {p : Plane} {x y : Nat}
    (hx : x < c.planeWidth p) (hy : y < c.planeHeight p) :
    c.sampleAddress p x y + c.bps ≤ c.planeBytes p :=
  calc c.sampleAddress p x y + c.bps = (y * c.planeWidth p + x + 1) * c.bps := (Nat.succ_mul ..).symm
    _ ≤ c.planeBytes p := Nat.mul_le_mul_right c.bps (rowMajor_lt hx hy)

theorem FrameSpec.sampleAddress_inj {c : FrameSpec} {p : Plane} {x y x' y' : Nat}
    (hx : x < c.planeWidth p) (hx' : x' < c.planeWidth p)
    (h : c.sampleAddress p x' y' = c.sampleAddress p x y) : x' = x ∧ y' = y :=
  rowMajor_inj hx hx' (Nat.eq_of_mul_eq_mul_right c.bps_bounds.1 h)

/-! ## Where a sample is missing (20_memory.md R45) -/

theorem Memory.le_of_read_eq_none {m : Memory} {a : Nat} (h : m.read a = none) : m.len ≤ a := by
  simpa [h] using m.read_isSome a

/-- A sample is missing only where the plane ends before its last byte. -/
theorem Memory.lt_of_readSample_eq_none {m : Memory} {a n : Nat} (hn : 1 ≤ n)
    (h : m.readSample a n = none) : m.len < a + n := by
  unfold Memory.readSample at h
  split at h
  · next hlo => have := Memory.le_of_read_eq_none hlo; omega
  · split at h
    · cases h
    · split at h
      · next hhi => have := Memory.le_of_read_eq_none hhi; omega
      · cases h

/-- Fetching stops only at a plane that is shorter than the configured one. -/
theorem State.len_lt_of_fetch_eq_none {s : State} {c : FrameSpec} {site : Plane × Nat × Nat}
    (h : s.fetch c site = none) : (s.plane site.1).len < c.planeBytes site.1 := by
  obtain ⟨p, x, y⟩ := site
  unfold State.fetch at h
  dsimp only at h
  split at h
  · cases h
  · next hin =>
    rw [not_or, Nat.not_le, Nat.not_le] at hin
    exact (Memory.lt_of_readSample_eq_none c.bps_bounds.1 h).trans_le
      (FrameSpec.sampleAddress_add_bps_le hin.1 hin.2)

theorem plane_of_mem_tileSites {p : Plane} {mbX mbY : Nat} {site : Plane × Nat × Nat}
    (h : site ∈ tileSites p mbX mbY) : site.1 = p := by
  simp only [tileSites, List.mem_flatMap, List.mem_map] at h
  obtain ⟨_, _, _, _, rfl⟩ := h
  rfl

/-- A macroblock takes samples only from the planes its configuration has (20_memory.md R43). -/
theorem hasPlane_of_mem_mbSites {c : FrameSpec} {mbX mbY : Nat} {site : Plane × Nat × Nat}
    (h : site ∈ mbSites c mbX mbY) : c.hasPlane site.1 = true := by
  unfold mbSites at h
  rcases List.mem_append.mp h with hy | hchroma
  · rw [plane_of_mem_tileSites hy]; rfl
  · split at hchroma
    · next h420 =>
      rcases List.mem_append.mp hchroma with hcb | hcr
      · simp [plane_of_mem_tileSites hcb, FrameSpec.hasPlane, h420]
      · simp [plane_of_mem_tileSites hcr, FrameSpec.hasPlane, h420]
    · cases hchroma

/-- A partial function that is not defined on a whole list misses one of its elements. -/
theorem exists_of_collect_eq_none {α β : Type} {f : α → Option β} {l : List α}
    (h : collect f l = none) : ∃ a ∈ l, f a = none := by
  induction l with
  | nil => cases h
  | cons a l ih =>
    cases ha : f a with
    | none => exact ⟨a, by simp, ha⟩
    | some b =>
      cases hl : collect f l with
      | none =>
        obtain ⟨a', hmem, hnone⟩ := ih hl
        exact ⟨a', by simp [hmem], hnone⟩
      | some bs => simp [collect, ha, hl] at h

/-- Macroblocks whose samples cannot all be read need a plane that is too short. -/
theorem not_planesHold_of_collect_eq_none {s : State} {c : FrameSpec} {mbs : List (Nat × Nat)}
    (h : collect (s.mbSamples c) mbs = none) : ¬ Claims.PlanesHold s c := fun hold => by
  obtain ⟨mb, -, hmb⟩ := exists_of_collect_eq_none h
  obtain ⟨site, hsite, hnone⟩ := exists_of_collect_eq_none hmb
  have hshort := State.len_lt_of_fetch_eq_none hnone
  have hlong := hold site.1 (hasPlane_of_mem_mbSites hsite)
  omega

/-! ## Commands answer a next state, or stop for the one reason -/

/-- `r` is a next state, or it is the stop of a read outside a plane, and `stop` holds. -/
def AnswersUnless (stop : Prop) (r : Result) : Prop :=
  (∃ t, r = .next t) ∨ (r = .fault .outOfPlaneRead ∧ stop)

section
variable {stop : Prop} {s : State}

theorem AnswersUnless.respond {r : BitVec 64} : AnswersUnless stop (Machine.respond r s) :=
  .inl ⟨_, rfl⟩

theorem AnswersUnless.raise {c : Cause} : AnswersUnless stop (Machine.raise c s) := .inl ⟨_, rfl⟩

theorem AnswersUnless.guard {p : Prop} [Decidable p] {c : Cause} {rest : Result}
    (h : AnswersUnless stop rest) : AnswersUnless stop (if p then Machine.raise c s else rest) := by
  split
  · exact .raise
  · exact h

theorem AnswersUnless.command {body : Result} (h : AnswersUnless stop body) :
    AnswersUnless stop (Machine.command s body) := by
  cases hf : s.fault with
  | true => exact .inl ⟨_, command_of_fault body hf⟩
  | false => rwa [command_of_ok body hf]

theorem AnswersUnless.withFrame {body : FrameSpec → Result}
    (h : ∀ c, s.cfg = some c → AnswersUnless stop (body c)) :
    AnswersUnless stop (Machine.withFrame s body) := by
  unfold Machine.withFrame
  split
  · exact .raise
  · next c hc => exact .guard (h c hc)

/-- Writing macroblocks stops where their samples were not all read, and nowhere else. -/
theorem AnswersUnless.writeMacroblocks {c : FrameSpec} {m : Nat} {mbs : Option (List (List Nat))}
    (h : mbs = none → stop) : AnswersUnless stop (Machine.writeMacroblocks s c m mbs) := by
  cases mbs with
  | none => exact .inr ⟨rfl, h rfl⟩
  | some l => exact .guard (.guard .respond)

end

theorem execCfg_answers (w h : BitVec 16) (d k : BitVec 8) (s : State) :
    AnswersUnless False (execCfg w h d k s) := by
  refine .command (.guard (.guard ?_))
  split
  · exact .guard (.guard .respond)
  · exact .raise

theorem execFrame_answers (fw fh : BitVec 16) (s : State) :
    AnswersUnless False (execFrame fw fh s) := by
  refine .command ?_
  split
  · exact .raise
  · exact .guard (.guard (.guard .respond))

theorem appendCode_answers (k : Nat) (s : State) : AnswersUnless False (appendCode k s) :=
  .guard (.guard (.guard .respond))

/-- Some plane of the configuration is shorter than it says. -/
def State.PlaneShort (s : State) : Prop := ∃ c, s.cfg = some c ∧ ¬ Claims.PlanesHold s c

theorem execMbpcm_answers (x y : BitVec 16) (s : State) :
    AnswersUnless s.PlaneShort (execMbpcm x y s) :=
  .command (.withFrame fun c hc => .guard (.writeMacroblocks fun hnone =>
    ⟨c, hc, not_planesHold_of_collect_eq_none hnone⟩))

theorem execPicpcm_answers (s : State) : AnswersUnless s.PlaneShort (execPicpcm s) :=
  .command (.withFrame fun c hc => .writeMacroblocks fun hnone =>
    ⟨c, hc, not_planesHold_of_collect_eq_none hnone⟩)

/-- Every command but the two that read samples answers a next state. -/
theorem exec_answers {i : Instr} (hi : ¬ Claims.ReadsSamples i) (s : State) :
    AnswersUnless False (exec i s) := by
  cases i with
  | cfg w h d k => exact execCfg_answers w h d k s
  | frame fw fh => exact execFrame_answers fw fh s
  | u => exact .command (.guard (.guard (.guard (.guard .respond))))
  | ue v => exact .command (appendCode_answers v.toNat s)
  | se v => exact .command (appendCode_answers (seCodeNum v.toInt) s)
  | align0 => exact .command (.guard .respond)
  | bitpos => exact .command .respond
  | aligned => exact .command .respond
  | trail => exact .command (.guard (.guard .respond))
  | epb => exact .command (.guard (.guard .respond))
  | nal => exact .command (.guard (.guard (.guard (.guard .respond))))
  | mbpcm x y => exact absurd (.inl ⟨x, y, rfl⟩) hi
  | picpcm => exact absurd (.inr rfl) hi

/-- The two commands that read samples stop only at a plane that is too short. -/
theorem exec_answers_of_readsSamples {i : Instr} (hi : Claims.ReadsSamples i) (s : State) :
    AnswersUnless s.PlaneShort (exec i s) := by
  rcases hi with ⟨x, y, rfl⟩ | rfl
  · exact execMbpcm_answers x y s
  · exact execPicpcm_answers s

/-! ## The host's load (20_memory.md R54) -/

@[simp] theorem Memory.len_ofBytes (bytes : List Byte) : (Memory.ofBytes bytes).len = bytes.length := rfl

theorem step_of_load {s : State} {p : Plane} {bytes : List Byte} {rest : List HostEvent}
    (hin : s.input = .load p bytes :: rest) :
    step s = .next (State.loadPlane { s with input := rest } p bytes) := by
  simp [step, State.takeInput_cons hin]

/-- A load writes frame memory only. -/
theorem State.loadPlane_eq_withPlanes (s : State) (p : Plane) (bytes : List Byte) :
    s.loadPlane p bytes =
      Claims.withPlanes (s.loadPlane p bytes).pixY (s.loadPlane p bytes).pixCb
        (s.loadPlane p bytes).pixCr s := by
  cases p <;> rfl

/-! ## How many bits a command adds (20_memory.md R48, 40_bitwriter.md R107) -/

/-- A command that leaves the block unfaulted was performed. -/
theorem Outcomes.performed {s t : State} {p : Prop} (h : Outcomes s t p) (hs : s.fault = false)
    (ht : t.fault = false) : p := by
  rcases h with ⟨hf, -⟩ | ⟨-, ⟨c, rfl⟩ | hp⟩
  · simp [hs] at hf
  · simp at ht
  · exact hp

theorem BitBuffer.bitPos_alignZero {b : BitBuffer} (h : b.wf = true) :
    b.alignZero.bitPos = b.bitPos + (8 - b.used.val % 8) % 8 := by
  rw [BitBuffer.alignZero, b.bitPos_appendBits _ h, length_alignmentZeros]

/-- Alignment adds at most seven bits (40_bitwriter.md R104). -/
theorem BitBuffer.bitPos_alignZero_bounds {b : BitBuffer} (h : b.wf = true) :
    b.bitPos ≤ b.alignZero.bitPos ∧ b.alignZero.bitPos ≤ b.bitPos + 7 := by
  rw [b.bitPos_alignZero h]
  omega

/-- The code of a `code_num` up to `2^32 - 2` has 1 to 63 bits (41_expgolomb.md R120). -/
theorem ueLength_bounds {k : Nat} (h : k ≤ 2 ^ 32 - 2) : 1 ≤ ueLength k ∧ ueLength k ≤ 63 := by
  have hlog : (k + 1).log2 < 32 := (Nat.log2_lt (Nat.succ_ne_zero k)).mpr (by omega)
  simp only [ueLength, egPrefixLength]
  omega

/-- A code of `UE` or `SE` adds 1 to 63 bits. -/
theorem BitBuffer.bitPos_appendBits_ueBits_bounds {b : BitBuffer} {k : Nat} (h : b.wf = true)
    (hk : k ≤ 2 ^ 32 - 2) :
    b.bitPos + 1 ≤ (b.appendBits (ueBits k)).bitPos ∧
      (b.appendBits (ueBits k)).bitPos ≤ b.bitPos + 63 := by
  have := ueLength_bounds hk
  rw [b.bitPos_appendBits _ h, length_ueBits]
  omega

/-- The macroblocks of a picture that has any add the bits `PICPCM` counts (44_rasterizer.md R187). -/
theorem BitBuffer.bitPos_picture {b : BitBuffer} {s : State} {c : FrameSpec} {ls : List (List Nat)}
    (h : b.wf = true) (hls : collect (s.mbSamples c) c.mbOrder = some ls) (hn : 0 < c.nmb) :
    (ls.foldl (fun b l => b.mbPcm c.depth l) b).bitPos = b.bitPos + c.picBits b.used.val := by
  have hlen : ls.length = c.nmb := (collect_length hls).trans (length_mbOrder c)
  cases ls with
  | nil => simp [← hlen] at hn
  | cons l ls =>
    rw [BitBuffer.bitPos_foldl_cons_mbPcm c l ls h (length_of_mem_mbSamples hls), FrameSpec.picBits,
      ← hlen, List.length_cons, Nat.add_sub_cancel]

end Sys2Proof.Machine

namespace Sys2Proof.Proofs

open Sys2Proof.Machine Sys2Proof.Claims

/-! ## The obligations -/

/-- Settles O6: the load is one step, and its effect is that of `loadPlane`. -/
theorem loadedPlaneReadsBack : Obligations.LoadedPlaneReadsBack := by
  intro s p bytes rest hin
  refine ⟨_, step_of_load hin, ?_, ?_, fun a => ?_, fun q hq => ?_, ?_⟩
  · rw [State.loadPlane_plane_self, Memory.len_ofBytes]
  · rw [State.loadPlane_plane_self, Memory.wf_ofBytes]
  · rw [State.loadPlane_plane_self, Memory.read_ofBytes]
  · exact State.loadPlane_plane_other _ bytes hq
  · exact State.loadPlane_eq_withPlanes _ p bytes

/-- Settles O29, from what each performed command leaves in `BUF`. -/
theorem appendedAmounts : Obligations.AppendedAmounts := by
  intro i s t hs hw h ht
  cases i with
  | cfg =>
    obtain ⟨-, _, _, -, -, -, -, -, -, rfl⟩ := (execCfg_next h).performed hs ht
    rfl
  | frame =>
    obtain ⟨_, -, -, -, -, rfl⟩ := (execFrame_next h).performed hs ht
    rfl
  | u n v =>
    obtain ⟨-, -, -, -, rfl⟩ := (execU_next h).performed hs ht
    exact BitBuffer.bitPos_writeBits _ _ hw
  | ue =>
    obtain ⟨-, hk, -, rfl⟩ := (execUe_next h).performed hs ht
    exact BitBuffer.bitPos_appendBits_ueBits_bounds hw hk
  | se =>
    obtain ⟨-, hk, -, rfl⟩ := (execSe_next h).performed hs ht
    exact BitBuffer.bitPos_appendBits_ueBits_bounds hw hk
  | align0 =>
    obtain ⟨-, rfl⟩ := (execAlign0_next h).performed hs ht
    exact BitBuffer.bitPos_alignZero_bounds hw
  | bitpos =>
    obtain rfl := (execBitpos_next h).performed hs ht
    rfl
  | aligned =>
    obtain rfl := (execAligned_next h).performed hs ht
    rfl
  | trail =>
    obtain ⟨-, -, rfl⟩ := (execTrail_next h).performed hs ht
    have hone := s.rbsp.bitPos_appendBits [true] hw
    have hzeros := BitBuffer.bitPos_alignZero_bounds (s.rbsp.wf_appendBits [true] hw)
    simpa [hone] using hzeros
  | epb =>
    obtain ⟨-, -, rfl⟩ := (execEpb_next h).performed hs ht
    rfl
  | nal =>
    obtain ⟨-, -, -, -, rfl⟩ := (execNal_next h).performed hs ht
    rfl
  | mbpcm =>
    intro c hc
    obtain ⟨c', _, l, hc', -, -, -, -, hl, -, -, rfl⟩ := (execMbpcm_next h).performed hs ht
    obtain rfl : c' = c := Option.some.inj (hc'.symm.trans hc)
    refine ⟨(8 - (s.rbsp.used.val + 9) % 8) % 8, by omega, ?_⟩
    rw [State.answer_rbsp, s.rbsp.bitPos_mbPcm c' hw (length_mbSamples hl), FrameSpec.mbBits]
    omega
  | picpcm =>
    intro c hc hn
    obtain ⟨c', _, ls, hc', -, -, hls, -, -, rfl⟩ := (execPicpcm_next h).performed hs ht
    obtain rfl : c' = c := Option.some.inj (hc'.symm.trans hc)
    exact BitBuffer.bitPos_picture hw hls hn

/-- Settles O35: row-major positions are distinct and inside their rectangle, `BPS` bytes each. -/
theorem sampleAddressesLieInThePlane : Obligations.SampleAddressesLieInThePlane := by
  intro c p x y hx hy
  exact ⟨Nat.mul_mod_left _ _, FrameSpec.sampleAddress_add_bps_le hx hy, c.planeBytes_lt p,
    fun x' y' hx' _ h => FrameSpec.sampleAddress_inj hx hx' h⟩

/-- Settles O45: eleven commands always answer, and the two that read samples stop only at a short plane. -/
theorem theOnlyStopIsAReadOutsideAPlane : Obligations.TheOnlyStopIsAReadOutsideAPlane := by
  intro i s
  by_cases hi : ReadsSamples i
  · exact (exec_answers_of_readsSamples hi s).imp_right fun ⟨hstop, hshort⟩ => ⟨hstop, hi, hshort⟩
  · exact (exec_answers hi s).imp_right fun ⟨_, hfalse⟩ => hfalse.elim

end Sys2Proof.Proofs
end

section
/-! PROOFS. The encoding (30_encoding.md R70 to R74): decoder and encoder are inverse to each other, the
illegal words are those that decode to no legal command, and they alone raise `IllegalCommand`. -/

namespace Sys2Proof

/-! ## What each format decodes to (30_encoding.md R71) -/

/-- A check that fails with an error: a value comes only from what follows it. -/
theorem ite_error_eq_ok {ε α : Type} {p : Prop} [Decidable p] {e : ε} {r : Except ε α} {a : α} :
    (if p then .error e else r) = .ok a ↔ ¬ p ∧ r = .ok a := by
  split
  · next hp => simp [hp]
  · next hp => simp [hp]

section
variable {i j : Instr} {arg : BitVec 8} {val : BitVec 64}

theorem decodeZ_eq_ok_iff : decodeZ i arg val = .ok j ↔ arg = 0#8 ∧ val = 0#64 ∧ i = j := by
  simp only [decodeZ, ite_error_eq_ok, ne_eq, not_not, Except.ok.injEq]

theorem decodeG_eq_ok_iff {make : BitVec 32 → Instr} : decodeG make arg val = .ok j ↔
    arg = 0#8 ∧ val.extractLsb' 32 32 = 0#32 ∧ make (val.extractLsb' 0 32) = j := by
  simp only [decodeG, ite_error_eq_ok, ne_eq, not_not, Except.ok.injEq]

theorem decodeD_eq_ok_iff {make : BitVec 16 → BitVec 16 → Instr} : decodeD make arg val = .ok j ↔
    arg = 0#8 ∧ val.extractLsb' 32 32 = 0#32 ∧
      make (val.extractLsb' 0 16) (val.extractLsb' 16 16) = j := by
  simp only [decodeD, ite_error_eq_ok, ne_eq, not_not, Except.ok.injEq]

theorem decodeC_eq_ok_iff : decodeC arg val = .ok j ↔
    arg = 0#8 ∧ val.extractLsb' 48 16 = 0#16 ∧
      .cfg (val.extractLsb' 0 16) (val.extractLsb' 16 16) (val.extractLsb' 32 8)
        (val.extractLsb' 40 8) = j := by
  simp only [decodeC, ite_error_eq_ok, ne_eq, not_not, Except.ok.injEq]

theorem decodeN_eq_ok_iff : decodeN arg val = .ok j ↔
    arg.extractLsb' 7 1 = 0#1 ∧ val.extractLsb' 1 63 = 0#63 ∧
      .nal (arg.extractLsb' 5 2) (arg.extractLsb' 0 5) (val.getLsbD 0) = j := by
  simp only [decodeN, ite_error_eq_ok, ne_eq, not_not, Except.ok.injEq]

end

/-! ## The decoder reads back every operand -/

/-- The operands of format `D` stand in their places below 32 zeros. -/
theorem decodeD_append (make : BitVec 16 → BitVec 16 → Instr) (a b : BitVec 16) :
    decodeD make 0#8 (0#32 ++ (b ++ a)) = .ok (make a b) := by
  refine decodeD_eq_ok_iff.mpr ⟨rfl, BitVec.extractLsb'_append_eq_left, ?_⟩
  rw [extract_append_low _ (b ++ a) 0 16 (by decide), extract_append_low _ (b ++ a) 16 16 (by decide),
    BitVec.extractLsb'_append_eq_right, BitVec.extractLsb'_append_eq_left]

/-- The operand of format `G` stands below 32 zeros. -/
theorem decodeG_append (make : BitVec 32 → Instr) (v : BitVec 32) :
    decodeG make 0#8 (0#32 ++ v) = .ok (make v) :=
  decodeG_eq_ok_iff.mpr
    ⟨rfl, BitVec.extractLsb'_append_eq_left, congrArg make BitVec.extractLsb'_append_eq_right⟩

/-- Below 16 zeros stand the chroma, the depth and the two 16-bit operands, each over the next. -/
theorem decodeC_append (w h : BitVec 16) (d c : BitVec 8) :
    decodeC 0#8 (0#16 ++ (c ++ (d ++ (h ++ w)))) = .ok (.cfg w h d c) := by
  refine decodeC_eq_ok_iff.mpr ⟨rfl, BitVec.extractLsb'_append_eq_left, ?_⟩
  have below48 := extract_append_low 0#16 (c ++ (d ++ (h ++ w)))
  have below40 (n k) (hn : n + k ≤ 40) := (below48 n k (by omega)).trans
    (extract_append_low c (d ++ (h ++ w)) n k hn)
  have below32 (n k) (hn : n + k ≤ 32) := (below40 n k (by omega)).trans
    (extract_append_low d (h ++ w) n k hn)
  rw [below32 0 16 (by decide), below32 16 16 (by decide), below40 32 8 (by decide),
    below48 40 8 (by decide), BitVec.extractLsb'_append_eq_right, BitVec.extractLsb'_append_eq_left,
    BitVec.extractLsb'_append_eq_left, BitVec.extractLsb'_append_eq_left]

theorem decodeN_append (r : BitVec 2) (t : BitVec 5) (sc : Bool) :
    decodeN (0#1 ++ (r ++ t)) (0#63 ++ BitVec.ofBool sc) = .ok (.nal r t sc) := by
  refine decodeN_eq_ok_iff.mpr
    ⟨BitVec.extractLsb'_append_eq_left, BitVec.extractLsb'_append_eq_left, ?_⟩
  rw [extract_append_low _ (r ++ t) 5 2 (by decide), extract_append_low _ (r ++ t) 0 5 (by decide),
    BitVec.extractLsb'_append_eq_left, BitVec.extractLsb'_append_eq_right]
  congr 1
  cases sc <;> rfl

theorem decode_encode (i : Instr) : decode (encode i) = .ok i := by
  simp only [decode, encode, opField_commandWord, argField_commandWord, valField_commandWord]
  cases i with
  | cfg w h d c => exact decodeC_append w h d c
  | frame a b => exact decodeD_append .frame a b
  | u n v => rfl
  | ue v => exact decodeG_append .ue v
  | se v => exact decodeG_append .se v
  | nal r t sc => exact decodeN_append r t sc
  | mbpcm a b => exact decodeD_append .mbpcm a b
  | align0 => rfl
  | bitpos => rfl
  | aligned => rfl
  | trail => rfl
  | epb => rfl
  | picpcm => rfl

/-! ## The encoder gives back every bit -/

/-- Two fields that touch are one field. -/
theorem extract_join {n s t k m : Nat} {x : BitVec n} {a : BitVec k} {b : BitVec m}
    (ha : x.extractLsb' t k = a) (hb : x.extractLsb' s m = b) (h : t = s + m) :
    x.extractLsb' s (k + m) = a ++ b := by
  subst ha hb
  rw [BitVec.extractLsb'_append_extractLsb'_eq_extractLsb' h]

/-- Two fields that touch and reach from bit 0 to the top are the whole. -/
theorem eq_append_of_extract {k m : Nat} {x : BitVec (k + m)} {a : BitVec k} {b : BitVec m}
    (ha : x.extractLsb' m k = a) (hb : x.extractLsb' 0 m = b) : x = a ++ b :=
  extract_whole x ▸ extract_join ha hb (Nat.zero_add m).symm

/-- A command encodes to the word that has its three fields. -/
theorem encode_eq_of_fields {w : CommandWord} {i : Instr} (hop : opField w = i.opcode)
    (harg : argField w = i.argOperand) (hval : valField w = i.valOperand) : encode i = w := by
  rw [encode, ← hop, ← harg, ← hval, commandWord_fields]

section
variable {w : CommandWord} {i j : Instr}

theorem encode_of_decodeZ (hop : opField w = i.opcode) (hi : i.argOperand = 0#8 ∧ i.valOperand = 0#64)
    (h : decodeZ i (argField w) (valField w) = .ok j) : encode j = w := by
  obtain ⟨harg, hval, rfl⟩ := decodeZ_eq_ok_iff.mp h
  exact encode_eq_of_fields hop (harg.trans hi.1.symm) (hval.trans hi.2.symm)

theorem encode_of_decodeB (hop : opField w = 0x10#8)
    (h : .ok (.u (argField w) (valField w)) = (.ok j : Except DecodeError Instr)) : encode j = w := by
  cases h
  exact encode_eq_of_fields hop rfl rfl

theorem encode_of_decodeG {make : BitVec 32 → Instr} (hop : ∀ v, opField w = (make v).opcode)
    (hmake : ∀ v, (make v).argOperand = 0#8 ∧ (make v).valOperand = 0#32 ++ v)
    (h : decodeG make (argField w) (valField w) = .ok j) : encode j = w := by
  obtain ⟨harg, hval, rfl⟩ := decodeG_eq_ok_iff.mp h
  obtain ⟨hmarg, hmval⟩ := hmake ((valField w).extractLsb' 0 32)
  exact encode_eq_of_fields (hop _) (harg.trans hmarg.symm)
    ((eq_append_of_extract (k := 32) (m := 32) hval rfl).trans hmval.symm)

theorem encode_of_decodeD {make : BitVec 16 → BitVec 16 → Instr}
    (hop : ∀ a b, opField w = (make a b).opcode)
    (hmake : ∀ a b, (make a b).argOperand = 0#8 ∧ (make a b).valOperand = 0#32 ++ (b ++ a))
    (h : decodeD make (argField w) (valField w) = .ok j) : encode j = w := by
  obtain ⟨harg, hval, rfl⟩ := decodeD_eq_ok_iff.mp h
  obtain ⟨hmarg, hmval⟩ := hmake ((valField w).extractLsb' 0 16) ((valField w).extractLsb' 16 16)
  exact encode_eq_of_fields (hop _ _) (harg.trans hmarg.symm)
    ((eq_append_of_extract (k := 32) (m := 32) hval
      (extract_join (k := 16) (m := 16) rfl rfl rfl)).trans hmval.symm)

theorem encode_of_decodeC (hop : opField w = 0x01#8)
    (h : decodeC (argField w) (valField w) = .ok j) : encode j = w := by
  obtain ⟨harg, hval, rfl⟩ := decodeC_eq_ok_iff.mp h
  exact encode_eq_of_fields hop harg (eq_append_of_extract (k := 16) (m := 48) hval
    (extract_join (k := 8) (m := 40) rfl (extract_join (k := 8) (m := 32) rfl
      (extract_join (k := 16) (m := 16) rfl rfl rfl) rfl) rfl))

/-- A bit as a field. -/
theorem extract_one_eq_ofBool {n : Nat} (x : BitVec n) (k : Nat) :
    x.extractLsb' k 1 = BitVec.ofBool (x.getLsbD k) := by
  apply BitVec.eq_of_getLsbD_eq
  intro i hi
  obtain rfl : i = 0 := by omega
  simp

theorem encode_of_decodeN (hop : opField w = 0x30#8)
    (h : decodeN (argField w) (valField w) = .ok j) : encode j = w := by
  obtain ⟨harg, hval, rfl⟩ := decodeN_eq_ok_iff.mp h
  exact encode_eq_of_fields hop
    (eq_append_of_extract (k := 1) (m := 7) harg (extract_join (k := 2) (m := 5) rfl rfl rfl))
    (eq_append_of_extract (k := 63) (m := 1) hval (extract_one_eq_ofBool _ 0))

/-- A check of the opcode: both of its branches must encode back. -/
theorem encode_of_ite {p : Prop} [Decidable p] {x y : Except DecodeError Instr}
    (hx : p → x = .ok i → encode i = w) (hy : y = .ok i → encode i = w) :
    (if p then x else y) = .ok i → encode i = w :=
  iteInduction (motive := fun r : Except DecodeError Instr => r = .ok i → encode i = w) hx fun _ => hy

/-- Each comparison of the opcode fixes the command's `OP`; its format fixes the rest. -/
theorem encode_of_decode : decode w = .ok i → encode i = w := by
  simp only [decode]
  refine encode_of_ite encode_of_decodeC ?_
  refine encode_of_ite (fun frame => encode_of_decodeD (fun _ _ => frame) fun _ _ => ⟨rfl, rfl⟩) ?_
  refine encode_of_ite encode_of_decodeB ?_
  refine encode_of_ite (fun ue => encode_of_decodeG (fun _ => ue) fun _ => ⟨rfl, rfl⟩) ?_
  refine encode_of_ite (fun se => encode_of_decodeG (fun _ => se) fun _ => ⟨rfl, rfl⟩) ?_
  refine encode_of_ite (fun align0 => encode_of_decodeZ align0 ⟨rfl, rfl⟩) ?_
  refine encode_of_ite (fun bitpos => encode_of_decodeZ bitpos ⟨rfl, rfl⟩) ?_
  refine encode_of_ite (fun aligned => encode_of_decodeZ aligned ⟨rfl, rfl⟩) ?_
  refine encode_of_ite (fun trail => encode_of_decodeZ trail ⟨rfl, rfl⟩) ?_
  refine encode_of_ite (fun epb => encode_of_decodeZ epb ⟨rfl, rfl⟩) ?_
  refine encode_of_ite encode_of_decodeN ?_
  refine encode_of_ite (fun mbpcm => encode_of_decodeD (fun _ _ => mbpcm) fun _ _ => ⟨rfl, rfl⟩) ?_
  refine encode_of_ite (fun picpcm => encode_of_decodeZ picpcm ⟨rfl, rfl⟩) ?_
  exact fun h => nomatch h

end

/-! ## The words that decode to a legal command (30_encoding.md R74) -/

/-- The decoder's answer is a command with legal operands. -/
def DecodesLegally (r : Except DecodeError Instr) : Prop := ∃ i, r = .ok i ∧ i.wellFormed = true

/-- The bits from `k` up are 0 exactly in the numbers below `2 ^ k`. -/
theorem extract_top_eq_zero_iff {k m : Nat} (x : BitVec (m + k)) :
    x.extractLsb' k m = 0#m ↔ x.toNat < 2 ^ k := by
  have hlt : x.toNat / 2 ^ k < 2 ^ m := Nat.div_lt_of_lt_mul (by
    rw [← Nat.pow_add, Nat.add_comm k m]
    exact x.isLt)
  rw [← BitVec.toNat_inj, BitVec.extractLsb'_toNat, Nat.shiftRight_eq_div_pow, Nat.mod_eq_of_lt hlt]
  simp [Nat.div_eq_zero_iff]

theorem nalTypeLegal_iff (t : BitVec 5) : nalTypeLegal t = true ↔ t.toNat ∈ [1, 5, 7, 8] := by
  revert t; decide

/-- The type of a `NAL` word, `ARG[4:0]`, as a number (30_encoding.md R71). -/
theorem toNat_extract_low_five (arg : BitVec 8) : (arg.extractLsb' 0 5).toNat = arg.toNat % 32 := by
  simp [BitVec.extractLsb'_toNat]

theorem not_decodesLegally_error {e : DecodeError} : ¬ DecodesLegally (.error e) := by
  rintro ⟨_, ⟨⟩, -⟩

section
variable {i : Instr} {arg : BitVec 8} {val : BitVec 64}

theorem decodesLegally_decodeZ (hi : i.wellFormed = true) :
    DecodesLegally (decodeZ i arg val) ↔ arg.toNat = 0 ∧ val.toNat = 0 := by
  simp [DecodesLegally, decodeZ_eq_ok_iff, ← BitVec.toNat_inj, and_assoc, hi]

theorem decodesLegally_decodeG {make : BitVec 32 → Instr} (hmake : ∀ v, (make v).wellFormed = true) :
    DecodesLegally (decodeG make arg val) ↔ arg.toNat = 0 ∧ val.toNat < 2 ^ 32 := by
  have hhigh := extract_top_eq_zero_iff (k := 32) (m := 32) val
  simp [DecodesLegally, decodeG_eq_ok_iff, hhigh, ← BitVec.toNat_inj, and_assoc, hmake]

theorem decodesLegally_decodeD {make : BitVec 16 → BitVec 16 → Instr}
    (hmake : ∀ a b, (make a b).wellFormed = true) :
    DecodesLegally (decodeD make arg val) ↔ arg.toNat = 0 ∧ val.toNat < 2 ^ 32 := by
  have hhigh := extract_top_eq_zero_iff (k := 32) (m := 32) val
  simp [DecodesLegally, decodeD_eq_ok_iff, hhigh, ← BitVec.toNat_inj, and_assoc, hmake]

theorem decodesLegally_u : DecodesLegally (.ok (.u arg val)) ↔ arg.toNat ≤ 64 := by
  simp [DecodesLegally, Instr.wellFormed]

theorem decodesLegally_decodeC :
    DecodesLegally (decodeC arg val) ↔ arg.toNat = 0 ∧ val.toNat < 2 ^ 48 := by
  have hhigh := extract_top_eq_zero_iff (k := 48) (m := 16) val
  simp [DecodesLegally, decodeC_eq_ok_iff, hhigh, ← BitVec.toNat_inj, and_assoc, Instr.wellFormed]

theorem decodesLegally_decodeN : DecodesLegally (decodeN arg val) ↔
    arg.toNat < 128 ∧ val.toNat < 2 ∧ arg.toNat % 32 ∈ [1, 5, 7, 8] := by
  have hbit7 := extract_top_eq_zero_iff (k := 7) (m := 1) arg
  have hhigh := extract_top_eq_zero_iff (k := 1) (m := 63) val
  have htype := nalTypeLegal_iff (arg.extractLsb' 0 5)
  rw [toNat_extract_low_five] at htype
  constructor
  · rintro ⟨_, hd, hw⟩
    obtain ⟨h7, hv, rfl⟩ := decodeN_eq_ok_iff.mp hd
    exact ⟨hbit7.mp h7, hhigh.mp hv, htype.mp hw⟩
  · rintro ⟨h7, hv, ht⟩
    exact ⟨_, decodeN_eq_ok_iff.mpr ⟨hbit7.mpr h7, hhigh.mpr hv, rfl⟩, htype.mpr ht⟩

end

end Sys2Proof

namespace Sys2Proof.Claims

/-! ## The illegal words, by the format of their opcode -/

section
variable {w : CommandWord}

theorem not_illegalWord_formatZ (h : (opField w).toNat ∈ [0x13, 0x14, 0x15, 0x20, 0x21, 0x41]) :
    ¬ IllegalWord w ↔ (argField w).toNat = 0 ∧ (valField w).toNat = 0 := by
  simp only [List.mem_cons, List.not_mem_nil, or_false] at h
  rcases h with h | h | h | h | h | h <;> simp [IllegalWord, h]

theorem not_illegalWord_formatGD (h : (opField w).toNat ∈ [0x02, 0x11, 0x12, 0x40]) :
    ¬ IllegalWord w ↔ (argField w).toNat = 0 ∧ (valField w).toNat < 2 ^ 32 := by
  simp only [List.mem_cons, List.not_mem_nil, or_false] at h
  rcases h with h | h | h | h <;> simp [IllegalWord, h]

theorem not_illegalWord_formatC (h : (opField w).toNat = 0x01) :
    ¬ IllegalWord w ↔ (argField w).toNat = 0 ∧ (valField w).toNat < 2 ^ 48 := by
  simp [IllegalWord, h]

theorem not_illegalWord_formatB (h : (opField w).toNat = 0x10) :
    ¬ IllegalWord w ↔ (argField w).toNat ≤ 64 := by
  simp [IllegalWord, h]

theorem not_illegalWord_formatN (h : (opField w).toNat = 0x30) : ¬ IllegalWord w ↔
    (argField w).toNat < 128 ∧ (valField w).toNat < 2 ∧ (argField w).toNat % 32 ∈ [1, 5, 7, 8] := by
  simp only [IllegalWord, List.mem_cons, List.not_mem_nil, or_false]
  omega

theorem decodesLegally_formatG_iff {make : BitVec 32 → Instr} {k : BitVec 8}
    (hmake : ∀ v, (make v).wellFormed = true) (hk : k.toNat ∈ [0x02, 0x11, 0x12, 0x40])
    (hop : opField w = k) :
    DecodesLegally (decodeG make (argField w) (valField w)) ↔ ¬ IllegalWord w :=
  (decodesLegally_decodeG hmake).trans (not_illegalWord_formatGD (hop ▸ hk)).symm

theorem decodesLegally_formatD_iff {make : BitVec 16 → BitVec 16 → Instr} {k : BitVec 8}
    (hmake : ∀ a b, (make a b).wellFormed = true) (hk : k.toNat ∈ [0x02, 0x11, 0x12, 0x40])
    (hop : opField w = k) :
    DecodesLegally (decodeD make (argField w) (valField w)) ↔ ¬ IllegalWord w :=
  (decodesLegally_decodeD hmake).trans (not_illegalWord_formatGD (hop ▸ hk)).symm

theorem decodesLegally_formatZ_iff {i : Instr} {k : BitVec 8} (hi : i.wellFormed = true)
    (hk : k.toNat ∈ [0x13, 0x14, 0x15, 0x20, 0x21, 0x41]) (hop : opField w = k) :
    DecodesLegally (decodeZ i (argField w) (valField w)) ↔ ¬ IllegalWord w :=
  (decodesLegally_decodeZ hi).trans (not_illegalWord_formatZ (hop ▸ hk)).symm

theorem decodesLegally_formatB_iff (hop : opField w = 0x10#8) :
    DecodesLegally (.ok (.u (argField w) (valField w))) ↔ ¬ IllegalWord w :=
  decodesLegally_u.trans (not_illegalWord_formatB (hop ▸ rfl)).symm

theorem decodesLegally_formatC_iff (hop : opField w = 0x01#8) :
    DecodesLegally (decodeC (argField w) (valField w)) ↔ ¬ IllegalWord w :=
  decodesLegally_decodeC.trans (not_illegalWord_formatC (hop ▸ rfl)).symm

theorem decodesLegally_formatN_iff (hop : opField w = 0x30#8) :
    DecodesLegally (decodeN (argField w) (valField w)) ↔ ¬ IllegalWord w :=
  decodesLegally_decodeN.trans (not_illegalWord_formatN (hop ▸ rfl)).symm

/-- A check of the opcode: the claim holds of it when it holds of both branches. -/
theorem decodesLegally_ite_iff {p : Prop} [Decidable p] {x y : Except DecodeError Instr}
    (hx : p → (DecodesLegally x ↔ ¬ IllegalWord w))
    (hy : ¬ p → (DecodesLegally y ↔ ¬ IllegalWord w)) :
    DecodesLegally (if p then x else y) ↔ ¬ IllegalWord w :=
  iteInduction (motive := fun r => DecodesLegally r ↔ ¬ IllegalWord w) hx hy

/-- R74 (a) to (d) are exactly the words that are no command with legal operands, opcode by opcode. -/
theorem decodesLegally_decode_iff : DecodesLegally (decode w) ↔ ¬ IllegalWord w := by
  simp only [decode]
  refine decodesLegally_ite_iff decodesLegally_formatC_iff fun cfg => ?_
  refine decodesLegally_ite_iff (decodesLegally_formatD_iff (fun _ _ => rfl) (by decide)) fun frame => ?_
  refine decodesLegally_ite_iff decodesLegally_formatB_iff fun u => ?_
  refine decodesLegally_ite_iff (decodesLegally_formatG_iff (fun _ => rfl) (by decide)) fun ue => ?_
  refine decodesLegally_ite_iff (decodesLegally_formatG_iff (fun _ => rfl) (by decide)) fun se => ?_
  refine decodesLegally_ite_iff (decodesLegally_formatZ_iff rfl (by decide)) fun align0 => ?_
  refine decodesLegally_ite_iff (decodesLegally_formatZ_iff rfl (by decide)) fun bitpos => ?_
  refine decodesLegally_ite_iff (decodesLegally_formatZ_iff rfl (by decide)) fun aligned => ?_
  refine decodesLegally_ite_iff (decodesLegally_formatZ_iff rfl (by decide)) fun trail => ?_
  refine decodesLegally_ite_iff (decodesLegally_formatZ_iff rfl (by decide)) fun epb => ?_
  refine decodesLegally_ite_iff decodesLegally_formatN_iff fun nal => ?_
  refine decodesLegally_ite_iff (decodesLegally_formatD_iff (fun _ _ => rfl) (by decide)) fun mbpcm => ?_
  refine decodesLegally_ite_iff (decodesLegally_formatZ_iff rfl (by decide)) fun picpcm => ?_
  have reserved : IllegalWord w := .inl (by
    simp only [List.mem_cons, List.not_mem_nil, or_false]
    bv_omega)
  exact iff_of_false not_decodesLegally_error (not_not_intro reserved)

end

end Sys2Proof.Claims

namespace Sys2Proof.Machine

/-! ## Which commands raise `IllegalCommand` (30_encoding.md R74) -/

/-- An ill-formed command raises `IllegalCommand` before its body looks at anything else. -/
theorem exec_of_not_wellFormed {i : Instr} {s : State} (hs : s.fault = false)
    (hi : i.wellFormed = false) : exec i s = .next (s.raised .illegalCommand) := by
  cases i with
  | u n v =>
    have hn : 64 < n.toNat := by simpa [Instr.wellFormed] using hi
    simp [exec, execU, hs, hn]
  | nal ref ty sc =>
    have hty : nalTypeLegal ty = false := hi
    simp [exec, execNal, hs, hty]
  | _ => cases hi

/-- `r` is no next state that has just raised `IllegalCommand`. -/
def RaisesNoIllegal (r : Result) : Prop := ∀ t, r = .next t → ¬ (t.fault = true ∧ t.cause = 1#8)

/-- Of the eight codes only that of `IllegalCommand` is 1 (60_exceptions.md R250). -/
theorem Cause.code_ne_one {c : Cause} (hc : c ≠ .illegalCommand) : c.code ≠ 1#8 := by
  cases c with
  | illegalCommand => exact absurd rfl hc
  | _ => decide

section
variable {s : State}

theorem RaisesNoIllegal.respond {r : BitVec 64} (hs : s.fault = false) :
    RaisesNoIllegal (Machine.respond r s) := by
  rintro _ ⟨⟩ ⟨hfault, -⟩
  simp [hs] at hfault

theorem RaisesNoIllegal.raise {c : Cause} (hc : c ≠ .illegalCommand := by decide) :
    RaisesNoIllegal (Machine.raise c s) := by
  rintro _ ⟨⟩ ⟨-, hcause⟩
  exact Cause.code_ne_one hc hcause

theorem RaisesNoIllegal.guard {p : Prop} [Decidable p] {c : Cause} {rest : Result}
    (h : RaisesNoIllegal rest) (hc : c ≠ .illegalCommand := by decide) :
    RaisesNoIllegal (if p then Machine.raise c s else rest) := by
  split
  · exact .raise hc
  · exact h

/-- The check of the encoding, which a well-formed command passes. -/
theorem RaisesNoIllegal.encoding {p : Prop} [Decidable p] {c : Cause} {rest : Result} (hp : ¬ p)
    (h : RaisesNoIllegal rest) : RaisesNoIllegal (if p then Machine.raise c s else rest) := by
  rwa [if_neg hp]

theorem RaisesNoIllegal.command {body : Result} (hs : s.fault = false) (h : RaisesNoIllegal body) :
    RaisesNoIllegal (Machine.command s body) := by
  rwa [command_of_ok body hs]

theorem RaisesNoIllegal.withFrame {body : FrameSpec → Result} (h : ∀ c, RaisesNoIllegal (body c)) :
    RaisesNoIllegal (Machine.withFrame s body) := by
  unfold Machine.withFrame
  split
  · exact .raise
  · exact .guard (h _)

theorem RaisesNoIllegal.writeMacroblocks {c : FrameSpec} {m : Nat} {mbs : Option (List (List Nat))}
    (hs : s.fault = false) : RaisesNoIllegal (Machine.writeMacroblocks s c m mbs) := by
  cases mbs with
  | none => rintro _ ⟨⟩
  | some l => exact .guard (.guard (.respond hs))

end

/-- A command with legal operands never raises `IllegalCommand`. -/
theorem exec_raisesNoIllegal {i : Instr} {s : State} (hs : s.fault = false)
    (hi : i.wellFormed = true) : RaisesNoIllegal (exec i s) := by
  cases i with
  | cfg =>
    refine .command hs (.guard (.guard ?_))
    split
    · exact .guard (.guard (.respond hs))
    · exact .raise
  | frame =>
    refine .command hs ?_
    split
    · exact .raise
    · exact .guard (.guard (.guard (.respond hs)))
  | u =>
    exact .command hs (.encoding (Nat.not_lt.mpr (of_decide_eq_true hi))
      (.guard (.guard (.guard (.respond hs)))))
  | ue => exact .command hs (.guard (.guard (.guard (.respond hs))))
  | se => exact .command hs (.guard (.guard (.guard (.respond hs))))
  | align0 => exact .command hs (.guard (.respond hs))
  | bitpos => exact .command hs (.respond hs)
  | aligned => exact .command hs (.respond hs)
  | trail => exact .command hs (.guard (.guard (.respond hs)))
  | epb => exact .command hs (.guard (.guard (.respond hs)))
  | nal =>
    exact .command hs (.encoding (not_not_intro hi) (.guard (.guard (.guard (.respond hs)))))
  | mbpcm => exact .command hs (.withFrame fun _ => .guard (.writeMacroblocks hs))
  | picpcm => exact .command hs (.withFrame fun _ => .writeMacroblocks hs)

theorem depthOf_eq_none {d : BitVec 8} (h : ¬ (d = 8#8 ∨ d = 12#8)) : depthOf d = none := by
  rw [not_or] at h
  rw [depthOf, if_neg h.1, if_neg h.2]

theorem chromaOf_eq_none {c : BitVec 8} (h : ¬ (c = 0#8 ∨ c = 1#8)) : chromaOf c = none := by
  rw [not_or] at h
  rw [chromaOf, if_neg h.1, if_neg h.2]

/-- The first `CFG` with a field outside its set is a `ConfigurationError` (R74 e, 45_config.md R211). -/
theorem execCfg_of_outOfSet {s : State} {w h : BitVec 16} {d c : BitVec 8} (hs : s.fault = false)
    (hcfg : s.cfg = none)
    (hset : ¬ (w ≠ 0#16 ∧ h ≠ 0#16 ∧ (d = 8#8 ∨ d = 12#8) ∧ (c = 0#8 ∨ c = 1#8))) :
    execCfg w h d c s = .next (s.raised .configurationError) := by
  rw [execCfg, command_of_ok _ hs, if_neg (by simp [State.cfgValid, hcfg])]
  by_cases hsize : w = 0#16 ∨ h = 0#16
  · rw [if_pos hsize, raise_eq]
  rw [if_neg hsize]
  rw [not_or] at hsize
  by_cases hd : d = 8#8 ∨ d = 12#8
  · rw [chromaOf_eq_none fun hc => hset ⟨hsize.1, hsize.2, hd, hc⟩]
    simp
  · rw [depthOf_eq_none hd]
    simp

/-- An illegal word raises `IllegalCommand` in the step that takes it. -/
theorem step_of_illegalWord {s : State} {w : CommandWord} {rest : List HostEvent}
    (hs : s.fault = false) (hin : s.input = .command w :: rest) (hw : Claims.IllegalWord w) :
    step s = .next (State.raised { s with input := rest } .illegalCommand) := by
  cases hd : decode w with
  | error e =>
    rw [step_of_decode_error hin hd]
    exact command_of_ok _ hs
  | ok i =>
    have hi : ¬ i.wellFormed = true := fun hi => Claims.decodesLegally_decode_iff.mp ⟨i, hd, hi⟩ hw
    rw [step_of_decode_ok hin hd]
    exact exec_of_not_wellFormed hs (eq_false_of_ne_true hi)

end Sys2Proof.Machine

namespace Sys2Proof.Proofs

open Sys2Proof.Machine Sys2Proof.Claims

/-! ## The obligations -/

/-- Settles O1, by the command: each format reads back the operands its word joins. -/
theorem decodeOfEncodeIsTheCommand : Obligations.DecodeOfEncodeIsTheCommand := decode_encode

/-- Settles O2: a format's checks and fields together cover all of `ARG` and `VAL`. -/
theorem encodeOfDecodeIsTheWord : Obligations.EncodeOfDecodeIsTheWord := fun _ _ => encode_of_decode

/-- Settles O3, by evaluating the decoder on the eight words. -/
theorem sampleWordsDecode : Obligations.SampleWordsDecode := by
  unfold Obligations.SampleWordsDecode
  decide

/-- Settles O4: the illegal words are those that decode to no legal command, and a legal command
never raises `IllegalCommand`. -/
theorem illegalWordsRaiseIllegalCommand : Obligations.IllegalWordsRaiseIllegalCommand := by
  rintro s w hs ⟨rest, hin⟩
  refine ⟨fun hw => ⟨_, step_of_illegalWord hs hin hw, rfl, rfl, rfl⟩, fun hw => ?_,
    fun _ _ _ _ hcfg hset => ⟨_, execCfg_of_outOfSet hs hcfg hset, rfl, rfl, rfl, rfl, rfl⟩⟩
  obtain ⟨i, hd, hi⟩ := decodesLegally_decode_iff.mpr hw
  refine ⟨⟨i, hd, hi⟩, ?_⟩
  rw [step_of_decode_ok hin hd]
  exact exec_raisesNoIllegal hs hi

end Sys2Proof.Proofs
end

section
/-! PROOFS. The bit writer (40_bitwriter.md): when its commands are performed and what they leave, and one
write for two. -/

namespace Sys2Proof.Machine

/-! ## Room in `BUF` (40_bitwriter.md R107) -/

theorem capacityHolds_iff_roomFor {cap : Option Nat} {n : Nat} :
    capacityHolds cap n = true ↔ Claims.roomFor cap n := by
  cases cap <;> simp [capacityHolds, Claims.roomFor]

theorem State.bitsFit_iff_roomFor {s : State} {m : Nat} :
    s.bitsFit m = true ↔ Claims.roomFor s.config.bufCap (ceilDiv (s.rbsp.bitPos + m) 8) :=
  capacityHolds_iff_roomFor

theorem ceilDiv_le_ceilDiv {a b : Nat} (h : a ≤ b) (k : Nat) : ceilDiv a k ≤ ceilDiv b k :=
  Nat.div_le_div_right (Nat.sub_le_sub_right (Nat.add_le_add_right h k) 1)

/-- Room for more bits is room for fewer. -/
theorem State.bitsFit_of_le {s : State} {k m : Nat} (hkm : k ≤ m) (h : s.bitsFit m = true) :
    s.bitsFit k = true :=
  State.bitsFit_iff_roomFor.mpr fun c hc =>
    (ceilDiv_le_ceilDiv (Nat.add_le_add_left hkm _) 8).trans (State.bitsFit_iff_roomFor.mp h c hc)

/-! ## Joined fields (40_bitwriter.md R101) -/

theorem field_eq_msbFirst (v n : Nat) : Claims.field v n = msbFirst v n := (msbFirst_eq_map_range v n).symm

/-- A field reads only the low bits of its number. -/
theorem msbFirst_congr {v w n : Nat} (h : ∀ i < n, v.testBit i = w.testBit i) :
    msbFirst v n = msbFirst w n := by
  rw [msbFirst_eq_map_range, msbFirst_eq_map_range]
  exact List.map_congr_left fun i hi => h i (by simpa using hi)

/-- The field of a joined number is the field of its high part, then that of its low part. -/
theorem msbFirst_join {b n : Nat} (a m : Nat) (hb : b < 2 ^ n) :
    msbFirst (a * 2 ^ n + b) (m + n) = msbFirst a m ++ msbFirst b n := by
  have hbit := Nat.testBit_two_pow_mul_add a hb
  rw [Nat.mul_comm a]
  induction m with
  | zero =>
    rw [Nat.zero_add]
    exact msbFirst_congr fun i hi => by rw [hbit, if_pos hi]
  | succ m ih =>
    rw [Nat.succ_add, msbFirst, msbFirst, ih, hbit, if_neg (by omega), Nat.add_sub_cancel,
      List.cons_append]

/-- Two writes are one write of the joined value (40_bitwriter.md R101). -/
theorem BitBuffer.writeBits_writeBits {s : BitBuffer} {b n : Nat} (a m : Nat) (h : s.wf = true)
    (hb : b < 2 ^ n) :
    (s.writeBits a m).writeBits b n = s.writeBits (a * 2 ^ n + b) (m + n) := by
  rw [BitBuffer.writeBits, BitBuffer.writeBits, s.appendBits_append _ _ h, BitBuffer.writeBits,
    msbFirst_join a m hb]

/-- A number below `2^m` before one below `2^n` makes one below `2^(m + n)`. -/
theorem join_lt {a b m n : Nat} (ha : a < 2 ^ m) (hb : b < 2 ^ n) : a * 2 ^ n + b < 2 ^ (m + n) := by
  rw [Nat.pow_add, Nat.mul_comm (2 ^ m)]
  exact rowMajor_lt hb ha

/-! ## Position and alignment (40_bitwriter.md R104 to R106) -/

theorem toNat_countResult {n : Nat} (h : n < 2 ^ 64) : (countResult n).toNat = n := by
  rw [countResult, if_pos h, BitVec.toNat_ofNat, Nat.mod_eq_of_lt h]

/-- A buffer is aligned when its bits fill whole bytes (10_state.md R13). -/
theorem BitBuffer.aligned_iff {b : BitBuffer} (h : b.wf = true) :
    b.aligned = true ↔ b.bitPos % 8 = 0 := by
  rw [b.bitPos_mod h, BitBuffer.aligned, beq_iff_eq, Fin.ext_iff, Fin.val_zero]

/-- `align_zero()` clears `USED` and nothing else (40_bitwriter.md R104). -/
theorem BitBuffer.alignZero_eq {b : BitBuffer} (h : b.wf = true) :
    b.alignZero = { buf := b.buf, used := 0 } :=
  BitBuffer.eq_of_fields (BitBuffer.buf_alignZero h) (congrArg Fin.val b.used_alignZero)

/-! ## The commands performed -/

/-- `s` after a performed command that leaves `b` in `BUF` and answers 0. -/
def State.afterWrite (s : State) (b : BitBuffer) : State := { s with rbsp := b }.answer 0#8 0#64

section
variable {s : State}

@[simp] theorem State.afterWrite_rbsp (b : BitBuffer) : (s.afterWrite b).rbsp = b := rfl

/-- A later write replaces the buffer and the answer of an earlier one. -/
@[simp] theorem State.afterWrite_afterWrite (b c : BitBuffer) :
    (s.afterWrite b).afterWrite c = s.afterWrite c := rfl

/-- `U` is performed when every check of 40_bitwriter.md R102 passes. -/
theorem exec_u {n : BitVec 8} {v : BitVec 64} (hs : s.fault = false) (hp : s.phase = .rbspOpen)
    (hn : n.toNat ≤ 64) (hv : v.toNat < 2 ^ n.toNat) (hfit : s.bitsFit n.toNat = true) :
    exec (.u n v) s = .next (s.afterWrite (s.rbsp.writeBits v.toNat n.toNat)) := by
  simp [exec, execU, State.afterWrite, hs, hp, hn.not_gt, hv.not_ge, hfit]

theorem exec_align0 (hs : s.fault = false) (hp : s.phase = .rbspOpen) :
    exec .align0 s = .next (s.afterWrite s.rbsp.alignZero) := by
  simp [exec, execAlign0, State.afterWrite, hs, hp]

theorem exec_bitpos (hs : s.fault = false) :
    exec .bitpos s = .next (s.answer 0#8 (countResult s.rbsp.bitPos)) := command_of_ok _ hs

theorem exec_aligned (hs : s.fault = false) :
    exec .aligned s = .next (s.answer 0#8 (if s.rbsp.aligned then 1#64 else 0#64)) := command_of_ok _ hs

/-- After a write of `m` bits there is room for `n` exactly when before it there was room for both. -/
theorem State.bitsFit_afterWrite_writeBits (v m n : Nat) (hw : s.rbsp.wf = true) :
    (s.afterWrite (s.rbsp.writeBits v m)).bitsFit n = s.bitsFit (m + n) := by
  rw [State.bitsFit, State.bitsFit, ← Nat.add_assoc, ← BitBuffer.bitPos_writeBits v m hw]
  rfl

/-- A command that leaves the buffer with `bits` appended appends them, in the words of the claims. -/
theorem appends_of_exec {i : Instr} {bits : List Bool} (hw : s.rbsp.wf = true)
    (h : exec i s = .next (s.afterWrite (s.rbsp.appendBits bits))) : Claims.Appends i s bits :=
  ⟨_, h, s.rbsp.wf_appendBits bits hw, s.rbsp.bits_appendBits bits hw⟩

end

end Sys2Proof.Machine

namespace Sys2Proof.Proofs

open Sys2Proof.Machine Sys2Proof.Claims

/-! ## The obligations -/

/-- Settles O17: `U` passes its checks and writes the field, which the model spells by recursion. -/
theorem uAppendsTheField : Obligations.UAppendsTheField := by
  intro n v s hs hw hp hn hv hroom
  rw [field_eq_msbFirst]
  exact appends_of_exec hw (exec_u hs hp hn hv (State.bitsFit_iff_roomFor.mpr hroom))

/-- Settles O20: the zeros `align_zero()` takes reach the boundary and leave the bytes. -/
theorem align0ReachesTheBoundary : Obligations.Align0ReachesTheBoundary := by
  intro s hs hw hp
  have hexec := exec_align0 hs hp
  have hpos := s.rbsp.bitPos_mod hw
  refine ⟨(8 - s.rbsp.used.val % 8) % 8, Nat.mod_lt _ (by decide), by omega,
    appends_of_exec hw hexec, ?_⟩
  rw [hexec, BitBuffer.alignZero_eq hw]
  rfl

/-- Settles O21: both queries answer from the position, which is the number of bits. -/
theorem queriesAnswerThePosition : Obligations.QueriesAnswerThePosition := by
  intro s hs hw
  rw [s.rbsp.length_bits hw]
  refine ⟨⟨_, exec_bitpos hs, toNat_countResult⟩, ⟨_, exec_aligned hs, ?_⟩⟩
  simp only [BitBuffer.aligned_iff hw]
  split <;> rfl

/-- Settles O28: the three writes pass their checks, and the two buffers are one. -/
theorem twoWritesAreOneWrite : Obligations.TwoWritesAreOneWrite := by
  intro m n a b s hs hw hp hmn ha hb hroom
  have hfit : s.bitsFit (m.toNat + n.toNat) = true :=
    State.bitsFit_iff_roomFor.mpr (by rwa [← Nat.add_assoc])
  have hlt := join_lt ha hb
  have hwidth : (m + n).toNat = m.toNat + n.toNat := BitVec.toNat_add_of_lt (by omega)
  have hvalue : (BitVec.ofNat 64 (a.toNat * 2 ^ n.toNat + b.toNat)).toNat =
      a.toNat * 2 ^ n.toNat + b.toNat :=
    Nat.mod_eq_of_lt (hlt.trans_le (Nat.pow_le_pow_right (by decide) hmn))
  refine ⟨_, _, exec_u hs hp (by omega) ha (State.bitsFit_of_le (Nat.le_add_right ..) hfit),
    exec_u hs hp (by omega) hb ((State.bitsFit_afterWrite_writeBits _ _ _ hw).trans hfit),
    (exec_u hs hp (by rwa [hwidth]) (by rwa [hvalue, hwidth]) (by rwa [hwidth])).trans ?_⟩
  rw [hvalue, hwidth, ← BitBuffer.writeBits_writeBits a.toNat m.toNat hw hb, State.afterWrite_rbsp,
    State.afterWrite_afterWrite]

end Sys2Proof.Proofs
end

section
/-! PROOFS. The Exp-Golomb codes (41_expgolomb.md): how a code is spelled, what reading one gives back, the
signed map, and the two commands performed. -/

namespace Sys2Proof.Machine

/-! ## Fields of a number, cut in two (30_encoding.md R75) -/

theorem msbFirst_mod (v n : Nat) : msbFirst (v % 2 ^ n) n = msbFirst v n :=
  msbFirst_congr fun i hi => by rw [Nat.testBit_mod_two_pow, decide_eq_true hi, Bool.true_and]

/-- The field of a number is the field of its high part, then that of its low bits. -/
theorem msbFirst_add (v m n : Nat) : msbFirst v (m + n) = msbFirst (v / 2 ^ n) m ++ msbFirst v n := by
  conv_lhs => rw [← Nat.div_add_mod' v (2 ^ n)]
  rw [msbFirst_join _ _ (Nat.mod_lt _ (Nat.two_pow_pos n)), msbFirst_mod]

theorem msbFirst_succ_eq_append (v n : Nat) : msbFirst v (n + 1) = msbFirst (v / 2) n ++ [v.testBit 0] :=
  msbFirst_add v n 1

theorem msbFirst_zero_left (n : Nat) : msbFirst 0 n = List.replicate n false := by
  induction n with
  | zero => rfl
  | succ n ih => rw [msbFirst, ih, Nat.zero_testBit, List.replicate_succ]

theorem ofMsbFirst_append_singleton (l : List Bool) (b : Bool) :
    ofMsbFirst (l ++ [b]) = 2 * ofMsbFirst l + b.toNat := List.foldl_concat ..

/-- A field spells the low bits of its number. -/
theorem ofMsbFirst_msbFirst (v n : Nat) : ofMsbFirst (msbFirst v n) = v % 2 ^ n := by
  induction n generalizing v with
  | zero => exact (Nat.mod_one v).symm
  | succ n ih =>
    rw [msbFirst_succ_eq_append, ofMsbFirst_append_singleton, ih, Nat.pow_succ', Nat.mod_mul,
      Nat.toNat_testBit, Nat.pow_zero, Nat.div_one, Nat.add_comm]

/-! ## The unsigned code (30_encoding.md R76) -/

theorem egPrefixLength_eq_iff {k l : Nat} : egPrefixLength k = l ↔ 2 ^ l ≤ k + 1 ∧ k + 1 < 2 ^ (l + 1) :=
  Nat.log2_eq_iff k.succ_ne_zero

/-- The highest set bit of `code_num + 1` is bit `L`. -/
theorem two_pow_egPrefixLength_bounds (k : Nat) :
    2 ^ egPrefixLength k ≤ k + 1 ∧ k + 1 < 2 ^ (egPrefixLength k + 1) :=
  egPrefixLength_eq_iff.mp rfl

/-- The code is `L` zeros, a one and the `L` low bits of `code_num + 1` (41_expgolomb.md R121). -/
theorem ueBits_eq (k : Nat) : ueBits k =
    List.replicate (egPrefixLength k) false ++ true :: msbFirst (k + 1) (egPrefixLength k) := by
  obtain ⟨hle, hlt⟩ := two_pow_egPrefixLength_bounds k
  have hlen : ueLength k = egPrefixLength k + 1 + egPrefixLength k := by rw [ueLength]; omega
  have hone : (k + 1) / 2 ^ egPrefixLength k = 1 :=
    Nat.div_eq_of_lt_le (by omega) (by rw [Nat.pow_succ] at hlt; omega)
  rw [ueBits, hlen, msbFirst_add, hone, msbFirst_succ_eq_append, Nat.div_eq_of_lt Nat.one_lt_two,
    msbFirst_zero_left, List.append_assoc]
  rfl

theorem ueLength_mono {k m : Nat} (h : k ≤ m) : ueLength k ≤ ueLength m := by
  have hlog : egPrefixLength k ≤ egPrefixLength m := by
    simp only [egPrefixLength, Nat.log2_eq_log_two]
    exact Nat.log_mono_right (Nat.succ_le_succ h)
  rw [ueLength, ueLength]
  omega

/-! ## Reading a code (30_encoding.md R84) -/

/-- Leading zeros are counted. -/
theorem readUeAfter_zeros (l n : Nat) (rest : List Bool) :
    readUeAfter l (List.replicate n false ++ rest) = readUeAfter (l + n) rest := by
  induction n generalizing l with
  | zero => rfl
  | succ n ih =>
    rw [List.replicate_succ, List.cons_append, readUeAfter, ih, Nat.add_assoc, Nat.add_comm 1]

/-- After the one, as many bits as there were zeros are the suffix. -/
theorem readUeAfter_one {l : Nat} {suffix : List Bool} (h : suffix.length = l) (rest : List Bool) :
    readUeAfter l (true :: (suffix ++ rest)) = some (2 ^ l - 1 + ofMsbFirst suffix, rest) := by
  subst h
  simp [readUeAfter]

/-- Reading inverts coding, whatever follows the code (41_expgolomb.md R122 c). -/
theorem readUe_ueBits_append (k : Nat) (rest : List Bool) : readUe (ueBits k ++ rest) = some (k, rest) := by
  obtain ⟨hle, hlt⟩ := two_pow_egPrefixLength_bounds k
  have hmod : (k + 1) % 2 ^ egPrefixLength k = k + 1 - 2 ^ egPrefixLength k := by
    rw [Nat.mod_eq_sub_mod hle, Nat.mod_eq_of_lt (by rw [Nat.pow_succ] at hlt; omega)]
  have hsum : 2 ^ egPrefixLength k - 1 + (k + 1 - 2 ^ egPrefixLength k) = k := by
    have := Nat.two_pow_pos (egPrefixLength k)
    omega
  rw [readUe, ueBits_eq, List.append_assoc, readUeAfter_zeros, Nat.zero_add, List.cons_append,
    readUeAfter_one (length_msbFirst ..), ofMsbFirst_msbFirst, hmod, hsum]

/-- Two bit strings that begin with codes and are equal begin with the same number and go on equal. -/
theorem eq_of_ueBits_append_eq {k m : Nat} {r t : List Bool} (h : ueBits k ++ r = ueBits m ++ t) :
    k = m ∧ r = t := by
  have hread := readUe_ueBits_append k r
  rw [h, readUe_ueBits_append] at hread
  cases hread
  exact ⟨rfl, rfl⟩

/-- No code begins another (41_expgolomb.md R122 b). -/
theorem eq_of_ueBits_prefix {k m : Nat} : ueBits k <+: ueBits m → k = m := fun ⟨_, hrest⟩ =>
  (eq_of_ueBits_append_eq (hrest.trans (List.append_nil _).symm)).1

theorem ueBits_append_ne_nil (k : Nat) (rest : List Bool) : ueBits k ++ rest ≠ [] := by simp [ueBits_eq]

/-- A concatenation of codes decodes uniquely (41_expgolomb.md R122 b). -/
theorem flatMap_ueBits_injective : ∀ l m : List Nat, l.flatMap ueBits = m.flatMap ueBits → l = m
  | [], [], _ => rfl
  | [], _ :: _, h => (ueBits_append_ne_nil _ _ h.symm).elim
  | _ :: _, [], h => (ueBits_append_ne_nil _ _ h).elim
  | _ :: l, _ :: m, h => by
    obtain ⟨rfl, hrest⟩ := eq_of_ueBits_append_eq h
    rw [flatMap_ueBits_injective l m hrest]

/-! ## The signed map (30_encoding.md R77) -/

theorem seCodeNum_of_pos {v : Int} (h : 0 < v) : seCodeNum v = 2 * v.natAbs - 1 := if_pos h

theorem seCodeNum_of_nonpos {v : Int} (h : v ≤ 0) : seCodeNum v = 2 * v.natAbs := if_neg h.not_gt

theorem seValue_of_odd {k : Nat} (h : k % 2 = 1) : seValue k = ((k + 1) / 2 : Nat) := if_pos h

theorem seValue_of_even {k : Nat} (h : k % 2 = 0) : seValue k = -((k / 2 : Nat) : Int) :=
  if_neg (by omega)

/-- The code number written in integers (41_expgolomb.md R123). -/
theorem seCodeNum_eq {v : Int} {k : Nat} (hpos : 0 < v → (k : Int) = 2 * v - 1)
    (hneg : v ≤ 0 → (k : Int) = -2 * v) : seCodeNum v = k := by
  rcases lt_or_ge 0 v with h | h
  · rw [seCodeNum_of_pos h]
    omega
  · rw [seCodeNum_of_nonpos h]
    omega

theorem seValue_seCodeNum (v : Int) : seValue (seCodeNum v) = v := by
  rcases lt_or_ge 0 v with h | h
  · rw [seCodeNum_of_pos h, seValue_of_odd (by omega)]
    omega
  · rw [seCodeNum_of_nonpos h, seValue_of_even (by omega)]
    omega

theorem seCodeNum_seValue (k : Nat) : seCodeNum (seValue k) = k := by
  rcases Nat.mod_two_eq_zero_or_one k with h | h
  · rw [seValue_of_even h, seCodeNum_of_nonpos (by omega)]
    omega
  · rw [seValue_of_odd h, seCodeNum_of_pos (by omega)]
    omega

/-- Every value but `-2^31` of the operand has a code of at most 63 bits (41_expgolomb.md R120). -/
theorem seCodeNum_toInt_le {v : BitVec 32} (h : v.toInt ≠ -2 ^ 31) : seCodeNum v.toInt ≤ 2 ^ 32 - 2 := by
  have hlo : -2 ^ 31 ≤ v.toInt := v.le_toInt
  have hhi : v.toInt < 2 ^ 31 := v.toInt_lt
  rw [seCodeNum]
  split <;> omega

/-! ## The signed code (41_expgolomb.md R124) -/

theorem seCodeNum_natCast_add_one {k : Nat} (hk : 0 < k) : seCodeNum k + 1 = 2 * k := by
  rw [seCodeNum_of_pos (by omega), Int.natAbs_natCast]
  omega

theorem seCodeNum_neg_natCast (k : Nat) : seCodeNum (-k) = 2 * k := by
  rw [seCodeNum_of_nonpos (by omega), Int.natAbs_neg, Int.natAbs_natCast]

/-- Without its last bit, `code_num + 1` is the magnitude. -/
theorem seCodeNum_add_one_div_two (v : Int) : (seCodeNum v + 1) / 2 = v.natAbs := by
  rw [seCodeNum]
  split <;> omega

/-- The last bit of `code_num + 1` is the sign. -/
theorem testBit_zero_seCodeNum_add_one {v : Int} (hv : v ≠ 0) :
    (seCodeNum v + 1).testBit 0 = decide (v < 0) := by
  rw [Nat.testBit_zero, decide_eq_decide, seCodeNum]
  split <;> omega

/-- The prefix length depends on the magnitude only. -/
theorem egPrefixLength_seCodeNum {v : Int} (hv : v ≠ 0) :
    egPrefixLength (seCodeNum v) = v.natAbs.log2 + 1 := by
  have hhalf := seCodeNum_add_one_div_two v
  rw [egPrefixLength, Nat.log2_def, if_pos (by omega), hhalf]

theorem length_seBits {v : Int} (hv : v ≠ 0) : (seBits v).length = 2 * v.natAbs.log2 + 3 := by
  rw [seBits, length_ueBits, ueLength, egPrefixLength_seCodeNum hv, Nat.mul_succ]

/-- A signed code is a field of the magnitude, then the sign. -/
theorem seBits_eq_append {v : Int} (hv : v ≠ 0) :
    seBits v = msbFirst v.natAbs (2 * (v.natAbs.log2 + 1)) ++ [decide (v < 0)] := by
  rw [seBits, ueBits, ueLength, msbFirst_succ_eq_append, seCodeNum_add_one_div_two,
    testBit_zero_seCodeNum_add_one hv, egPrefixLength_seCodeNum hv]

/-! ## The commands performed -/

section
variable {s : State} {k : Nat}

theorem exec_ue (v : BitVec 32) (s : State) : exec (.ue v) s = command s (appendCode v.toNat s) := rfl

theorem exec_se (v : BitVec 32) (s : State) :
    exec (.se v) s = command s (appendCode (seCodeNum v.toInt) s) := rfl

/-- The common body of `UE` and `SE` where every check passes (41_expgolomb.md R121, R123). -/
theorem appendCode_eq (hp : s.phase = .rbspOpen) (hk : k ≤ 2 ^ 32 - 2)
    (hfit : s.bitsFit (ueLength k) = true) :
    appendCode k s = .next (s.afterWrite (s.rbsp.appendBits (ueBits k))) := by
  rw [appendCode, if_neg (not_not.mpr hp), if_neg hk.not_gt, if_neg (not_not.mpr hfit)]
  rfl

/-- A command that is the common body on `k` appends the code of `k`, spelled with its prefix length. -/
theorem appends_code {i : Instr} {l : Nat} (hi : exec i s = command s (appendCode k s))
    (hs : s.fault = false) (hw : s.rbsp.wf = true) (hp : s.phase = .rbspOpen) (hk : k ≤ 2 ^ 32 - 2)
    (hle : 2 ^ l ≤ k + 1) (hlt : k + 1 < 2 ^ (l + 1))
    (hroom : Claims.roomFor s.config.bufCap (ceilDiv (s.rbsp.bitPos + (2 * l + 1)) 8)) :
    Claims.Appends i s (List.replicate l false ++ [true] ++ Claims.field (k + 1) l) := by
  obtain rfl := egPrefixLength_eq_iff.mpr ⟨hle, hlt⟩
  rw [field_eq_msbFirst, List.append_assoc, List.singleton_append, ← ueBits_eq]
  refine appends_of_exec hw (hi.trans ((command_of_ok _ hs).trans ?_))
  exact appendCode_eq hp hk (State.bitsFit_iff_roomFor.mpr hroom)

end

end Sys2Proof.Machine

namespace Sys2Proof.Proofs

open Sys2Proof.Machine Sys2Proof.Claims

/-! ## The obligations -/

/-- Settles O18: the operand is the code number of the common body. -/
theorem ueAppendsTheCode : Obligations.UeAppendsTheCode :=
  fun v _ s hs hw hp hv hle hlt hroom => appends_code (exec_ue v s) hs hw hp hv hle hlt hroom

/-- Settles O19: the mapped operand is the code number of the common body, and only `-2^31` maps too high. -/
theorem seAppendsTheMappedCode : Obligations.SeAppendsTheMappedCode := by
  intro v k l s hs hw hp hpos hneg hv hle hlt hroom
  obtain rfl := seCodeNum_eq hpos hneg
  exact appends_code (exec_se v s) hs hw hp (seCodeNum_toInt_le hv) hle hlt hroom

/-- Settles O30: prefix freedom and unique decoding both follow from the reader. -/
theorem ueCodeLaws : Obligations.UeCodeLaws :=
  ⟨length_ueBits, fun _ _ => eq_of_ueBits_prefix, readUe_ueBits_append, flatMap_ueBits_injective,
    fun v w h => by simpa using ueLength_mono h.le⟩

/-- Settles O31: halving `code_num + 1` gives the magnitude, and the bit that is dropped is the sign. -/
theorem seCodeLaws : Obligations.SeCodeLaws := by
  refine ⟨seValue_seCodeNum, seCodeNum_seValue,
    fun v rest => ⟨_, readUe_ueBits_append _ rest, seValue_seCodeNum v⟩, fun k hk => ?_,
    fun v hv => ⟨?_, length_seBits hv⟩, rfl⟩
  · have hpos : (k : Int) ≠ 0 := by omega
    have hneg : -(k : Int) ≠ 0 := by omega
    rw [egPrefixLength_seCodeNum hpos, egPrefixLength_seCodeNum hneg, seBits_eq_append hpos,
      seBits_eq_append hneg, Int.natAbs_neg, Int.natAbs_natCast, Nat.log2_two_mul hk.ne']
    exact ⟨seCodeNum_natCast_add_one hk, congrArg (· + 1) (seCodeNum_neg_natCast k), rfl, rfl, _,
      by rw [decide_eq_false (by omega)], by rw [decide_eq_true (by omega)]⟩
  · rw [length_seBits hv, Nat.log2_two_mul (Int.natAbs_ne_zero.mpr hv), Nat.mul_succ]

end Sys2Proof.Proofs
end

section
/-! PROOFS. The RBSP engine (42_rbsp.md): the laws of emulation prevention, the two commands performed, and
the form of every delivered unit. -/

namespace Sys2Proof.Machine

/-! ## Emulation prevention (42_rbsp.md R143, R145) -/

/-- Where no byte is inserted the zero count stays in its range. -/
theorem zeroCount_le_two {z : Nat} {b : Byte} (hz : z ≤ 2) (h : ¬ (z = 2 ∧ b.toNat ≤ 3)) :
    (if b = 0#8 then z + 1 else 0) ≤ 2 := by
  split
  · next hb =>
    have hz2 : z ≠ 2 := fun h2 => h ⟨h2, by simp [hb]⟩
    omega
  · omega

/-- The reader meets an inserted byte exactly where the writer, with the same count, has put one. -/
theorem unescapeFrom_escapeMarked (z : Nat) (s : List Byte) (hz : z ≤ 2) :
    unescapeFrom z ((escapeMarked z s).map Prod.fst) = s := by
  fun_induction escapeMarked z s with
  | case1 => rfl
  | case2 z b rest hins ih =>
    obtain ⟨rfl, -⟩ := hins
    have := ih (by split <;> omega)
    simpa [unescapeFrom] using this
  | case3 z b rest hkeep ih =>
    have hread : ¬ (2 ≤ z ∧ b = 0x03#8) := by
      rintro ⟨h2, rfl⟩
      exact hkeep ⟨by omega, by decide⟩
    simpa [unescapeFrom, hread] using ih (zeroCount_le_two hz hkeep)

/-- Reading marked bytes after `z` zeros: each byte of at most `0x03` that follows two zeros is an
inserted `0x03`. -/
def NoBareCode (z : Nat) : List (Byte × Bool) → Prop
  | [] => True
  | x :: rest => (2 ≤ z → x.1.toNat ≤ 3 → x = (0x03#8, true)) ∧
      NoBareCode (if x.1 = 0#8 then z + 1 else 0) rest

theorem noBareCode_escapeMarked (z : Nat) (s : List Byte) (hz : z ≤ 2) :
    NoBareCode z (escapeMarked z s) := by
  fun_induction escapeMarked z s with
  | case1 => trivial
  | case2 z b rest hins ih =>
    have := ih (by split <;> omega)
    simpa [NoBareCode] using this
  | case3 z b rest hkeep ih =>
    exact ⟨fun h2 hb => absurd ⟨by omega, hb⟩ hkeep, ih (zeroCount_le_two hz hkeep)⟩

/-- After two zero bytes the count read is at least 2, whatever stands before them. -/
theorem NoBareCode.eq_inserted {z : Nat} {m : List (Byte × Bool)} (h : NoBareCode z m) {k : Nat}
    {x : Byte × Bool} (h0 : (m[k]?).map Prod.fst = some 0x00#8)
    (h1 : (m[k + 1]?).map Prod.fst = some 0x00#8) (h2 : m[k + 2]? = some x) (hx : x.1.toNat ≤ 3) :
    x = (0x03#8, true) := by
  induction k generalizing z m with
  | zero =>
    match m, h with
    | a :: b :: c :: _, ⟨_, _, hc, _⟩ =>
      have ha : a.1 = 0x00#8 := by simpa using h0
      have hb : b.1 = 0x00#8 := by simpa using h1
      obtain rfl : c = x := by simpa using h2
      exact hc (by simp [ha, hb]) hx
  | succ k ih =>
    match m, h with
    | a :: _, ⟨_, hrest⟩ => exact ih hrest h0 h1 h2

/-- The last byte of the escaped form is that of the source: none is inserted at the end. -/
theorem getLast?_map_escapeMarked (z : Nat) (s : List Byte) :
    ((escapeMarked z s).map Prod.fst).getLast? = s.getLast? := by
  fun_induction escapeMarked z s with
  | case1 => rfl
  | case2 z b rest hins ih => simp [List.getLast?_cons, ← ih]
  | case3 z b rest hkeep ih => simp [List.getLast?_cons, ← ih]

theorem getLast?_escape (s : List Byte) : (escape s).getLast? = s.getLast? := getLast?_map_escapeMarked 0 s

theorem unescape_escape (s : List Byte) : unescape (escape s) = s :=
  unescapeFrom_escapeMarked 0 s (Nat.zero_le 2)

theorem length_escape (s : List Byte) : (escape s).length = (escapeMarked 0 s).length :=
  List.length_map _

/-- Every byte of the escaped form is a source byte or an inserted one. -/
theorem length_escapeMarked (z : Nat) (s : List Byte) :
    (escapeMarked z s).length = s.length + ((escapeMarked z s).filter fun m => m.2).length := by
  fun_induction escapeMarked z s with
  | case1 => rfl
  | case2 z b rest hins ih =>
    simp only [List.length_cons, List.filter_cons_of_pos, List.filter_cons_of_neg, ih,
      Bool.false_eq_true, not_false_eq_true]
    omega
  | case3 z b rest hkeep ih =>
    simp only [List.length_cons, List.filter_cons_of_neg, ih, Bool.false_eq_true, not_false_eq_true]
    omega

/-- An insertion takes two zeros, of which `z` may have come before. -/
theorem two_mul_length_escapeMarked_le (z : Nat) (s : List Byte) :
    2 * (escapeMarked z s).length ≤ 3 * s.length + z := by
  fun_induction escapeMarked z s with
  | case1 => simp
  | case2 z b rest hins ih =>
    have : (if b = 0#8 then 1 else 0) ≤ 1 := by split <;> omega
    simp only [List.length_cons]; omega
  | case3 z b rest hkeep ih =>
    have : (if b = 0#8 then z + 1 else 0) ≤ z + 1 := by split <;> omega
    simp only [List.length_cons]; omega

/-- A run of zeros takes one insertion for two zeros, those before it counted, and the byte that ends
it is covered where it is at most `0x03`. -/
theorem length_escapeMarked_zeros (m z : Nat) (b : Byte) (hz : z ≤ 2) :
    (escapeMarked z (List.replicate m 0x00#8 ++ [b])).length =
      m + 1 + if b.toNat ≤ 3 then (m + z) / 2 else (m + z - 1) / 2 := by
  induction m generalizing z with
  | zero =>
    by_cases hb : b.toNat ≤ 3
    · rcases hz.lt_or_eq with h | rfl
      · simp [escapeMarked, hb, h.ne]; omega
      · simp [escapeMarked, hb]
    · simp [escapeMarked, hb]; omega
  | succ m ih =>
    rw [List.replicate_succ, List.cons_append]
    rcases hz.lt_or_eq with h | rfl
    · simp only [escapeMarked, h.ne, false_and, if_false, if_true, List.length_cons, ih (z + 1) h]
      split <;> omega
    · simp only [escapeMarked, BitVec.toNat_zero, Nat.zero_le, and_self, if_true, List.length_cons,
        ih 1 (by decide)]
      split <;> omega

/-! ## The commands performed -/

/-- Only an aligned buffer needs a byte for the trailing bits (42_rbsp.md R141). -/
theorem State.trailFits_iff_roomFor {s : State} : s.trailFits = true ↔
    (s.rbsp.used = 0 → Claims.roomFor s.config.bufCap (s.rbsp.buf.length + 1)) := by
  rw [← capacityHolds_iff_roomFor]
  by_cases h : s.rbsp.used = 0 <;> simp [State.trailFits, BitBuffer.aligned, h]

theorem exec_trail {s : State} (hs : s.fault = false) (hp : s.phase = .rbspOpen)
    (hfit : s.trailFits = true) :
    exec .trail s = .next (State.answer
      { s with rbsp := (s.rbsp.appendBits [true]).alignZero, phase := .trailed } 0#8 0#64) := by
  simp [exec, execTrail, hs, hp, hfit]

theorem exec_epb {s : State} (hs : s.fault = false) (hp : s.phase = .trailed)
    (hfit : s.escapedFits (escape s.rbsp.buf).length = true) :
    exec .epb s = .next (State.answer { s with esc := escape s.rbsp.buf, phase := .escaped } 0#8
      (countResult ((escape s.rbsp.buf).length - s.rbsp.buf.length))) := by
  rw [exec, execEpb, command_of_ok _ hs, if_neg (not_not.mpr hp), if_neg (not_not.mpr hfit), respond_eq]

/-- The trailing bits are a one and zeros up to the boundary (30_encoding.md R82). -/
theorem BitBuffer.bits_trail {b : BitBuffer} (h : b.wf = true) :
    (b.appendBits [true]).alignZero.bits =
      b.bits ++ true :: alignmentZeros (b.appendBits [true]).used.val := by
  rw [BitBuffer.bits_alignZero (b.wf_appendBits _ h), b.bits_appendBits _ h, List.append_assoc,
    List.singleton_append]

/-! ## Delivered units (43_nal.md R161, R165) -/

theorem nalHeader_eq_ofNat (ref : BitVec 2) (ty : BitVec 5) :
    nalHeader ref ty = BitVec.ofNat 8 (ref.toNat * 32 + ty.toNat) := by
  revert ref ty; decide

/-- A step delivers nothing, or the unit of a `NAL` that passes its checks on the present `ESC`. -/
theorem deliveredBy_cases (s : State) : Claims.deliveredBy s = [] ∨
    ∃ (ref : BitVec 2) (ty : BitVec 5) (sc : Bool), Claims.deliveredBy s =
        (if sc then [0x00#8, 0x00#8, 0x00#8, 0x01#8] else []) ++ [nalHeader ref ty] ++ s.esc ∧
      s.fault = false ∧ nalTypeLegal ty = true ∧ s.phase = .escaped ∧ ¬ (ty = 5#5 ∧ ref = 0#2) := by
  unfold Claims.deliveredBy
  split
  · split
    · next ref ty sc _ =>
      split
      · next h =>
        obtain ⟨hs, hty, hp, hidr, -⟩ := h
        exact .inr ⟨ref, ty, sc, rfl, hs, hty, hp, hidr⟩
      · exact .inl rfl
    · exact .inl rfl
  · exact .inl rfl

/-- What one step delivers from every state that meets the invariant, all steps of a run deliver. -/
theorem forall_mem_deliveries {P : List Byte → Prop} (h : ∀ s : State, s.Inv → P (Claims.deliveredBy s))
    (n : Nat) (s : State) (hs : s.Inv) : ∀ unit ∈ Claims.deliveries n s, P unit := by
  induction n generalizing s with
  | zero => simp [Claims.deliveries]
  | succ n ih =>
    intro unit hunit
    rcases List.mem_cons.mp hunit with rfl | hrest
    · exact h s hs
    · cases hstep : step s with
      | next t => exact ih t ((step_next hstep).inv hs) unit (by simpa [hstep] using hrest)
      | fault => simp [hstep] at hrest
      | refused => simp [hstep] at hrest

/-- In phase `ESCAPED` the escaped buffer comes from an RBSP that ends in a byte that is not zero. -/
theorem State.BuffersOk.escaped {s : State} (h : s.BuffersOk) (hp : s.phase = .escaped) :
    s.esc = escape s.rbsp.buf ∧ ∃ x, s.rbsp.buf.getLast? = some x ∧ x ≠ 0x00#8 :=
  ⟨by simpa [hp] using h.esc, (h.closed (by simp [hp])).2⟩

end Sys2Proof.Machine

namespace Sys2Proof.Proofs

open Sys2Proof.Machine Sys2Proof.Claims

/-! ## The obligations -/

/-- Settles O43: the invariant says what `ESC` holds at each step, and every step keeps it. -/
theorem everyDeliveredUnitIsWellFormed : Obligations.EveryDeliveredUnitIsWellFormed := by
  intro n s _ hs _
  refine forall_mem_deliveries (fun u hu => ?_) n s hs
  refine (deliveredBy_cases u).imp_right fun ⟨ref, ty, sc, hunit, hf, hty, hp, hidr⟩ => ?_
  obtain ⟨hesc, x, hlast, hx⟩ := (hu.buffers hf).escaped hp
  rw [nalHeader_eq_ofNat, hesc] at hunit
  refine ⟨ref, ty, sc, u.rbsp.buf, x, hunit, (nalTypeLegal_iff ty).mp hty, fun h5 h0 => ?_, hlast, hx,
    unescape_escape _⟩
  exact hidr ⟨BitVec.eq_of_toNat_eq h5, BitVec.eq_of_toNat_eq h0⟩

/-- Settles O22: the alignment after the one bit adds zeros and no byte, so the last byte holds the one. -/
theorem trailClosesTheRbsp : Obligations.TrailClosesTheRbsp := by
  intro s hs hw hp hroom
  refine ⟨_, _, exec_trail hs hp (State.trailFits_iff_roomFor.mpr hroom), BitBuffer.bits_trail hw,
    Nat.mod_lt _ (by decide), BitBuffer.used_alignZero _, ?_⟩
  rw [BitBuffer.buf_trail hw]
  exact BitBuffer.getLast?_appendBit_true hw

/-- Settles O23: the growth in length is the number of inserted bytes. -/
theorem epbFillsTheEscapedBuffer : Obligations.EpbFillsTheEscapedBuffer := by
  intro s hs hp hroom
  refine ⟨_, exec_epb hs hp (capacityHolds_iff_roomFor.mpr hroom), fun hlt => ?_⟩
  have hlen := length_escapeMarked 0 s.rbsp.buf
  rw [toNat_countResult (by omega), length_escape]
  omega

/-- Settles O32: the marked bytes are read with the count they were written with; a header byte that is
not zero leaves no zero before them, and the last byte is the source's. -/
theorem escapedFormHasNoStartCode : Obligations.EscapedFormHasNoStartCode := by
  have hmarked : ∀ s, NoBareCode 0 (escapeMarked 0 s) := fun s => noBareCode_escapeMarked 0 s (by decide)
  refine ⟨fun s k x h0 h1 h2 hx => (hmarked s).eq_inserted h0 h1 h2 hx, fun s h k x hh h0 h1 h2 hx => ?_,
    fun s hs => by rwa [getLast?_escape]⟩
  cases k with
  | zero => exact absurd (Option.some.inj h0) hh
  | succ k =>
    simp only [List.getElem?_cons_succ, escape, List.getElem?_map] at h0 h1 h2
    obtain ⟨y, hy, rfl⟩ := Option.map_eq_some_iff.mp h2
    rw [(hmarked s).eq_inserted h0 h1 hy hx]

/-- Settles O33: the reader's zero count follows the writer's, and both start at 0. -/
theorem unescapeInvertsEscape : Obligations.UnescapeInvertsEscape := unescape_escape

/-- Settles O34: the bounds and the count on a run both hold with zeros before, and none are at the start. -/
theorem escapedLengthBounds : Obligations.EscapedLengthBounds := by
  refine ⟨fun s => ?_, fun m b _ => ?_⟩
  · have hlower := length_escapeMarked 0 s
    have hupper := two_mul_length_escapeMarked_le 0 s
    rw [length_escape]
    omega
  · rw [length_escape]
    exact length_escapeMarked_zeros m 0 b (by decide)

end Sys2Proof.Proofs
end

section
/-! PROOFS. The NAL framer (43_nal.md): when a unit is accepted, what its command then does, what a run
delivers, and the obligations about the units and the header byte. -/

namespace Sys2Proof.Machine

/-! ## The unit and its header (30_encoding.md R78 to R80) -/

/-- The unit in the words of the claims: optional start code, header byte, escaped bytes. -/
theorem nalUnit_eq_append (ref : BitVec 2) (ty : BitVec 5) (sc : Bool) (esc : List Byte) :
    nalUnit ref ty sc esc =
      (if sc then [0x00#8, 0x00#8, 0x00#8, 0x01#8] else []) ++ [nalHeader ref ty] ++ esc := by
  rw [nalUnit, startCode, List.append_assoc, List.singleton_append]

theorem length_nalUnit (ref : BitVec 2) (ty : BitVec 5) (sc : Bool) (esc : List Byte) :
    (nalUnit ref ty sc esc).length = esc.length + if sc then 5 else 1 := by
  cases sc <;> rfl

theorem toNat_nalHeader (ref : BitVec 2) (ty : BitVec 5) :
    (nalHeader ref ty).toNat = ref.toNat * 32 + ty.toNat := by
  rw [nalHeader_eq_ofNat, BitVec.toNat_ofNat]
  omega

theorem nalHeader_eq_argField (ref : BitVec 2) (ty : BitVec 5) (sc : Bool) :
    nalHeader ref ty = argField (encode (.nal ref ty sc)) :=
  (argField_commandWord _ _ _).symm

/-- A byte below 128 is the header of its own two fields. -/
theorem nalHeader_of_fields {b : Byte} (h : b.toNat < 128) :
    nalHeader (BitVec.ofNat 2 (b.toNat / 32)) (BitVec.ofNat 5 b.toNat) = b := by
  apply BitVec.eq_of_toNat_eq
  rw [toNat_nalHeader, BitVec.toNat_ofNat, BitVec.toNat_ofNat]
  omega

/-! ## `NAL` accepted and refused (43_nal.md R161) -/

/-- Every check of `NAL` passes. -/
def NalAccepted (ref : BitVec 2) (ty : BitVec 5) (s : State) : Prop :=
  s.fault = false ∧ nalTypeLegal ty = true ∧ s.phase = .escaped ∧ ¬ (ty = 5#5 ∧ ref = 0#2) ∧
    s.sinkOk = true

section
variable {ref : BitVec 2} {ty : BitVec 5} {sc : Bool} {s t : State}

theorem exec_nal (h : NalAccepted ref ty s) : exec (.nal ref ty sc) s = .next (State.answer
    { s with
      out := s.out ++ nalUnit ref ty sc s.esc, rbsp := BitBuffer.empty, esc := [],
      phase := .rbspOpen } 0#8 (countResult (nalUnit ref ty sc s.esc).length)) := by
  obtain ⟨hs, hty, hp, hidr, hsink⟩ := h
  rw [exec, execNal, command_of_ok _ hs, if_neg (not_not.mpr hty), if_neg (not_not.mpr hp), if_neg hidr,
    if_neg (not_not.mpr hsink), respond_eq]

/-- An IDR unit with `nal_ref_idc = 0` is refused before the sink is asked (43_nal.md R165). -/
theorem exec_nal_idr_of_ref_zero (hs : s.fault = false) (hp : s.phase = .escaped) :
    exec (.nal 0#2 5#5 sc) s = .next (s.raised .invariantViolation) := by
  rw [exec, execNal, command_of_ok _ hs, if_neg (not_not.mpr (by decide)), if_neg (not_not.mpr hp),
    if_pos ⟨rfl, rfl⟩, raise_eq]

/-- A `NAL` that fails a check delivers nothing, faulted or not. -/
theorem out_of_not_nalAccepted (h : exec (.nal ref ty sc) s = .next t) (hr : ¬ NalAccepted ref ty s) :
    t.out = s.out := by
  rcases execNal_next h with ⟨-, rfl⟩ | ⟨hs, ⟨c, rfl⟩ | ⟨hty, hp, hidr, hsink, -⟩⟩
  · rfl
  · rfl
  · exact absurd ⟨hs, hty, hp, hidr, hsink⟩ hr

end

/-! ## What a step delivers -/

/-- The next item the host presents is the word of a `NAL` command. -/
def PresentsNal (s : State) : Prop :=
  ∃ w rest ref ty sc, s.input = .command w :: rest ∧ decode w = .ok (.nal ref ty sc)

section
variable {s t : State} {w : CommandWord} {rest : List HostEvent}

theorem deliveredBy_of_nalAccepted {ref : BitVec 2} {ty : BitVec 5} {sc : Bool}
    (hin : s.input = .command w :: rest) (hd : decode w = .ok (.nal ref ty sc))
    (h : NalAccepted ref ty s) : Claims.deliveredBy s = nalUnit ref ty sc s.esc := by
  simp only [Claims.deliveredBy, hin, hd]
  exact (if_pos h).trans (nalUnit_eq_append ref ty sc s.esc).symm

theorem deliveredBy_of_not_nalAccepted {ref : BitVec 2} {ty : BitVec 5} {sc : Bool}
    (hin : s.input = .command w :: rest) (hd : decode w = .ok (.nal ref ty sc))
    (h : ¬ NalAccepted ref ty s) : Claims.deliveredBy s = [] := by
  simp only [Claims.deliveredBy, hin, hd]
  exact if_neg h

theorem deliveredBy_of_not_presentsNal (h : ¬ PresentsNal s) : Claims.deliveredBy s = [] := by
  unfold Claims.deliveredBy
  split
  · next w rest hin =>
    split
    · next ref ty sc hd => exact absurd ⟨w, rest, ref, ty, sc, hin, hd⟩ h
    · rfl
  · rfl

/-- A step that takes a `NAL` word appends what is delivered to `OUT`. -/
theorem out_of_step_nal {ref : BitVec 2} {ty : BitVec 5} {sc : Bool}
    (hin : s.input = .command w :: rest) (hd : decode w = .ok (.nal ref ty sc))
    (h : step s = .next t) : t.out = s.out ++ Claims.deliveredBy s := by
  rw [step_of_decode_ok hin hd] at h
  by_cases hacc : NalAccepted ref ty s
  · rw [exec_nal (s := { s with input := rest }) hacc] at h
    cases h
    rw [deliveredBy_of_nalAccepted hin hd hacc]
    rfl
  · rw [deliveredBy_of_not_nalAccepted hin hd hacc, List.append_nil]
    exact out_of_not_nalAccepted (s := { s with input := rest }) h hacc

/-- Every other step leaves `OUT`, the reset event too (10_state.md R20, 70_reset_and_hazards.md R280). -/
theorem out_of_step_not_presentsNal (hn : ¬ PresentsNal s) (h : step s = .next t) : t.out = s.out := by
  cases step_next h with
  | idle => rfl
  | @command w rest i _ hin hd _ =>
    rw [step_of_decode_ok hin hd] at h
    exact (exec_commandFrame h).out fun ref ty sc hi => hn ⟨w, rest, ref, ty, sc, hin, hi ▸ hd⟩
  | illegal _ ho =>
    rcases ho with ⟨-, rfl⟩ | ⟨-, ⟨c, rfl⟩ | hfalse⟩
    · rfl
    · rfl
    · exact hfalse.elim
  | load => exact State.loadPlane_out _ _ _
  | sinkAnswer => rfl
  | reset => rfl

/-- `OUT` grows at each step by what the step delivers (43_nal.md R163). -/
theorem out_of_step (h : step s = .next t) : t.out = s.out ++ Claims.deliveredBy s := by
  by_cases hn : PresentsNal s
  · obtain ⟨w, rest, ref, ty, sc, hin, hd⟩ := hn
    exact out_of_step_nal hin hd h
  · rw [deliveredBy_of_not_presentsNal hn, List.append_nil]
    exact out_of_step_not_presentsNal hn h

end

/-! ## Runs, step by step -/

/-- A run that ends in a state took its first step to a state. -/
theorem run_succ_next {M : Host.Core} {n : Nat} {s t : M.State} (h : M.run (n + 1) s = .next t) :
    ∃ u, M.step s = .next u ∧ M.run n u = .next t := by
  rw [Host.Core.run] at h
  split at h
  · next u hu => exact ⟨u, hu, h⟩
  · cases h
  · cases h

theorem deliveries_succ {n : Nat} {s u : State} (h : step s = .next u) :
    Claims.deliveries (n + 1) s = Claims.deliveredBy s :: Claims.deliveries n u := by
  simp [Claims.deliveries, h]

end Sys2Proof.Machine

namespace Sys2Proof.Proofs

open Sys2Proof.Machine Sys2Proof.Claims

/-! ## The obligations -/

/-- Settles O42, by induction on the number of steps: each appends what it delivers. -/
theorem outIsTheUnitsOfTheAcceptedNals : Obligations.OutIsTheUnitsOfTheAcceptedNals := by
  intro n
  induction n with
  | zero =>
    intro s t h
    obtain rfl : s = t := Host.Outcome.next.inj h
    exact (List.append_nil s.out).symm
  | succ n ih =>
    intro s t h
    obtain ⟨u, hstep, hrun⟩ := run_succ_next h
    calc t.out = u.out ++ (deliveries n u).flatten := ih u t hrun
      _ = s.out ++ (deliveredBy s ++ (deliveries n u).flatten) := by
        rw [out_of_step hstep, List.append_assoc]
      _ = s.out ++ (deliveries (n + 1) s).flatten := by rw [deliveries_succ hstep, List.flatten_cons]

/-- Settles O14: the check of R165 stands before the delivery, and the header keeps both fields. -/
theorem idrUnitsAreReferenceUnits : Obligations.IdrUnitsAreReferenceUnits := by
  refine ⟨fun sc s hs hp => ⟨_, exec_nal_idr_of_ref_zero hs hp, rfl, rfl, rfl, rfl, rfl⟩,
    fun ref sc s t hs h ht => ?_⟩
  obtain ⟨-, -, hidr, -, rfl⟩ := (execNal_next h).performed hs ht
  refine ⟨fun hzero => hidr ⟨rfl, hzero⟩, ?_⟩
  rw [State.answer_out, nalUnit_eq_append, nalHeader_eq_ofNat, List.append_assoc, List.append_assoc,
    List.append_assoc]
  rfl

/-- Settles O24: the equation of the accepted command, its unit written out. -/
theorem nalDeliversTheUnit : Obligations.NalDeliversTheUnit := by
  intro ref ty sc s hs hp hty hidr hsink
  have hacc : NalAccepted ref ty s :=
    ⟨hs, (nalTypeLegal_iff ty).mpr hty, hp, fun ⟨h5, h0⟩ => hidr (by simp [h5, h0]), hsink⟩
  refine ⟨countResult (nalUnit ref ty sc s.esc).length, ?_, fun hlt => ?_⟩
  · rw [exec_nal hacc, nalUnit_eq_append, nalHeader_eq_ofNat, ← List.append_assoc, ← List.append_assoc]
    rfl
  · rw [toNat_countResult (by rw [length_nalUnit]; split <;> omega), length_nalUnit]

/-- Settles O36: the header byte is the number `32 * ref + ty`, with `ref` below 4 and four values of `ty`. -/
theorem nalHeaderBytes : Obligations.NalHeaderBytes := by
  refine ⟨fun ref ty sc => ⟨nalHeader_eq_argField ref ty sc, toNat_nalHeader ref ty⟩,
    fun b => ⟨?_, fun hb => ?_⟩, fun ref ty hty => ?_, fun ref ty esc => ⟨rfl, rfl⟩⟩
  · rintro ⟨ref, ty, hty, rfl, hne⟩
    have hheader := toNat_nalHeader ref ty
    have hnot5 : (nalHeader ref ty).toNat ≠ 5 := fun h5 => hne (BitVec.eq_of_toNat_eq h5)
    simp only [List.mem_cons, List.not_mem_nil, or_false] at hty ⊢
    omega
  · have hfields : b.toNat < 128 ∧ b.toNat % 32 ∈ [1, 5, 7, 8] ∧ b.toNat ≠ 5 := by
      simp only [List.mem_cons, List.not_mem_nil, or_false] at hb ⊢
      omega
    obtain ⟨hlt, hty, hne⟩ := hfields
    refine ⟨_, _, ?_, (nalHeader_of_fields hlt).symm, fun h5 => hne (congrArg BitVec.toNat h5)⟩
    rwa [BitVec.toNat_ofNat]
  · have hheader := toNat_nalHeader ref ty
    simp only [List.mem_cons, List.not_mem_nil, or_false] at hty
    refine ⟨fun h0 => ?_, fun hle => BitVec.eq_of_toNat_eq ?_⟩
    · rw [h0, BitVec.toNat_ofNat] at hheader
      omega
    · rw [BitVec.toNat_ofNat]
      omega

end Sys2Proof.Proofs
end

section
/-! PROOFS. The macroblock rasterizer (44_rasterizer.md): when its commands are performed and what they
leave, where each sample stands in `BUF`, and the picture as its macroblocks one after another. -/

namespace Sys2Proof.Machine

/-! ## Declaring a frame (44_rasterizer.md R181) -/

section
variable {s : State} {c : FrameSpec}

theorem State.planeMatches_iff {p : Plane} :
    s.planeMatches c p = true ↔ (c.hasPlane p = true → (s.plane p).len = c.planeBytes p) := by
  cases h : c.hasPlane p <;> simp [State.planeMatches, h]

/-- `FRAME` with the configured size is performed where every plane matches. -/
theorem exec_frame (hs : s.fault = false) (hc : s.cfg = some c) (h : ∀ p, s.planeMatches c p = true) :
    exec (.frame c.width c.height) s =
      .next (State.answer { s with frame := some ⟨c.width, c.height⟩ } 0#8 0#64) := by
  simp [exec, execFrame, hs, hc, h]

/-! ## The samples of a macroblock (44_rasterizer.md R184) -/

theorem Memory.read_of_lt {m : Memory} {a : Nat} (h : a < m.len) :
    m.read a = some ((m.read a).getD 0#8) := by
  simp [Memory.read, h]

/-- A sample of one byte is that byte (20_memory.md R42). -/
theorem Memory.readSample_one {m : Memory} {a : Nat} (h : a + 1 ≤ m.len) :
    m.readSample a 1 = some (Claims.byteAt m a) := by
  rw [Memory.readSample, Memory.read_of_lt h]
  rfl

/-- A sample of two bytes is little-endian (20_memory.md R42). -/
theorem Memory.readSample_two {m : Memory} {a : Nat} (h : a + 2 ≤ m.len) :
    m.readSample a 2 = some (Claims.byteAt m a + 256 * Claims.byteAt m (a + 1)) := by
  rw [Memory.readSample, Memory.read_of_lt (Nat.lt_of_succ_lt h), Memory.read_of_lt h]
  rfl

/-- A sample whose bytes the plane holds is the pixel. -/
theorem readSample_eq_pixel {p : Plane} {x y : Nat}
    (h : c.sampleAddress p x y + c.bps ≤ (s.plane p).len) :
    (s.plane p).readSample (c.sampleAddress p x y) c.bps = some (Claims.pixel s c p x y) := by
  unfold FrameSpec.sampleAddress FrameSpec.bps at *
  unfold Claims.pixel
  cases hd : c.depth with
  | eight =>
    simp only [hd, Nat.mul_one] at h ⊢
    exact Memory.readSample_one h
  | twelve =>
    simp only [hd] at h ⊢
    exact Memory.readSample_two h

/-- With the configured planes in frame memory, every position gives the sample a macroblock shows. -/
theorem State.fetch_eq_shown (hold : Claims.PlanesHold s c) {p : Plane} (hp : c.hasPlane p = true)
    (x y : Nat) : s.fetch c (p, x, y) = some (Claims.shown s c p x y) := by
  by_cases hin : x < c.planeWidth p ∧ y < c.planeHeight p
  · rw [State.fetch, if_neg (by omega), Claims.shown, if_pos hin]
    exact readSample_eq_pixel ((FrameSpec.sampleAddress_add_bps_le hin.1 hin.2).trans (hold p hp))
  · rw [State.fetch, if_pos (by omega), Claims.shown, if_neg hin]

/-- The samples a macroblock shows, in stream order. -/
def State.shownSamples (s : State) (c : FrameSpec) (mb : Nat × Nat) : List Nat :=
  (mbSites c mb.1 mb.2).map fun site => Claims.shown s c site.1 site.2.1 site.2.2

theorem State.mbSamples_eq_shownSamples (hold : Claims.PlanesHold s c) (mb : Nat × Nat) :
    s.mbSamples c mb = some (s.shownSamples c mb) :=
  collect_of_forall fun _ hsite => State.fetch_eq_shown hold (hasPlane_of_mem_mbSites hsite) _ _

theorem State.collect_mbSamples_eq_shownSamples (hold : Claims.PlanesHold s c) (mbs : List (Nat × Nat)) :
    collect (s.mbSamples c) mbs = some (mbs.map (s.shownSamples c)) :=
  collect_of_forall fun mb _ => State.mbSamples_eq_shownSamples hold mb

theorem State.length_shownSamples (mb : Nat × Nat) :
    (s.shownSamples c mb).length = 256 + 128 * c.chroma.code :=
  (List.length_map _).trans (length_mbSites c mb.1 mb.2)

/-- Every position of a tile lies in its macroblock. -/
theorem div_tileSide_of_mem_tileSites {p : Plane} {mbX mbY : Nat} {site : Plane × Nat × Nat}
    (h : site ∈ tileSites p mbX mbY) :
    site.2.1 / site.1.tileSide = mbX ∧ site.2.2 / site.1.tileSide = mbY := by
  simp only [tileSites, List.mem_flatMap, List.mem_map, List.mem_range] at h
  obtain ⟨j, hj, i, hi, rfl⟩ := h
  have hpos : 0 < p.tileSide := Nat.zero_lt_of_lt hi
  simp [Nat.mul_add_div hpos, Nat.div_eq_of_lt hi, Nat.div_eq_of_lt hj]

/-- The positions of a macroblock are those of the tiles it has. -/
theorem exists_tile_of_mem_mbSites {mbX mbY : Nat} {site : Plane × Nat × Nat}
    (h : site ∈ mbSites c mbX mbY) : ∃ p, site ∈ tileSites p mbX mbY := by
  unfold mbSites at h
  split at h
  · rcases List.mem_append.mp h with hy | hchroma
    · exact ⟨_, hy⟩
    · rcases List.mem_append.mp hchroma with hcb | hcr
      · exact ⟨_, hcb⟩
      · exact ⟨_, hcr⟩
  · exact ⟨_, by simpa using h⟩

/-- Padding samples pass the range check, so only the pixels count (44_rasterizer.md R185). -/
theorem samplesInRange_shownSamples {mb : Nat × Nat} (h : Claims.MacroblockInRange s c mb.1 mb.2) :
    samplesInRange c.depth (s.shownSamples c mb) = true := by
  simp only [samplesInRange, State.shownSamples, List.all_map, List.all_eq_true, Function.comp_apply,
    decide_eq_true_eq]
  intro site hsite
  obtain ⟨p, htile⟩ := exists_tile_of_mem_mbSites hsite
  obtain ⟨hx, hy⟩ := div_tileSide_of_mem_tileSites htile
  unfold Claims.shown
  split
  · next hin => exact h _ _ _ (hasPlane_of_mem_mbSites hsite) hin.1 hin.2 hx hy
  · exact Nat.two_pow_pos _

theorem macroblockInRange_of_pictureInRange (h : Claims.PictureInRange s c) (mbX mbY : Nat) :
    Claims.MacroblockInRange s c mbX mbY := fun p x y hp hx hy _ _ => h p x y hp hx hy

/-- The samples of one plane in the words of the claims. -/
theorem flatMap_tileSites_eq_tileBits (p : Plane) (mbX mbY : Nat) :
    ((tileSites p mbX mbY).flatMap fun site =>
      msbFirst (Claims.shown s c site.1 site.2.1 site.2.2) c.depth.bits) =
    Claims.tileBits s c p mbX mbY := by
  simp only [tileSites, Claims.tileBits, field_eq_msbFirst, List.flatMap_assoc, List.flatMap_map]

/-- The samples of a macroblock in the words of the claims. -/
theorem flatMap_shownSamples_eq_macroblockSampleBits (mb : Nat × Nat) :
    ((s.shownSamples c mb).flatMap fun v => msbFirst v c.depth.bits) =
      Claims.macroblockSampleBits s c mb.1 mb.2 := by
  rw [State.shownSamples, List.flatMap_map, mbSites, Claims.macroblockSampleBits, List.flatMap_append,
    flatMap_tileSites_eq_tileBits]
  split
  · rw [List.flatMap_append, flatMap_tileSites_eq_tileBits, flatMap_tileSites_eq_tileBits]
  · rfl

end

/-! ## Raster order -/

/-- Row by row is by number, with the column as remainder and the row as quotient. -/
theorem rowMajor_eq_map_range {α : Type} (w h : Nat) (f : Nat → Nat → α) :
    ((List.range h).flatMap fun j => (List.range w).map fun i => f i j) =
      (List.range (w * h)).map fun k => f (k % w) (k / w) := by
  induction h with
  | zero => rfl
  | succ h ih =>
    rw [List.range_succ, List.flatMap_append, ih, Nat.mul_succ, List.range_add, List.map_append,
      List.flatMap_singleton, List.map_map]
    refine congrArg _ (List.map_congr_left fun i hi => ?_)
    have hi : i < w := List.mem_range.mp hi
    simp [Nat.mul_add_div (Nat.zero_lt_of_lt hi), Nat.mod_eq_of_lt hi, Nat.div_eq_of_lt hi]

/-- Row by row, position `(i, j)` stands at number `j * w + i`. -/
theorem getElem?_rowMajor {α : Type} {w h i j : Nat} (f : Nat → Nat → α) (hi : i < w) (hj : j < h) :
    ((List.range h).flatMap fun j => (List.range w).map fun i => f i j)[j * w + i]? = some (f i j) := by
  rw [rowMajor_eq_map_range, List.getElem?_map, List.getElem?_range (rowMajor_lt hi hj), Nat.mul_comm j]
  simp [Nat.mul_add_div (Nat.zero_lt_of_lt hi), Nat.mod_eq_of_lt hi, Nat.div_eq_of_lt hi]

/-- `mb_x` fastest, in the words of the claims (44_rasterizer.md R187). -/
theorem FrameSpec.mbOrder_eq (c : FrameSpec) :
    c.mbOrder = (List.range (c.mbw * c.mbh)).map fun k => (k % c.mbw, k / c.mbw) :=
  rowMajor_eq_map_range c.mbw c.mbh Prod.mk

/-- The number of the first sample of a plane in a macroblock (44_rasterizer.md R188). -/
def Plane.firstSample (p : Plane) : Nat :=
  match p with
  | .y => 0
  | .cb => 256
  | .cr => 320

/-- The samples of a plane stand in one piece in a macroblock, from the plane's first sample on. -/
theorem exists_mbSites_eq_append {c : FrameSpec} {p : Plane} (hp : c.hasPlane p = true) (mbX mbY : Nat) :
    ∃ before after, before.length = p.firstSample ∧
      mbSites c mbX mbY = before ++ tileSites p mbX mbY ++ after := by
  unfold mbSites
  cases p with
  | y => exact ⟨[], _, rfl, rfl⟩
  | cb =>
    rw [if_pos (by simpa [FrameSpec.hasPlane] using hp), ← List.append_assoc]
    exact ⟨_, _, length_tileSites .y mbX mbY, rfl⟩
  | cr =>
    rw [if_pos (by simpa [FrameSpec.hasPlane] using hp), ← List.append_assoc]
    exact ⟨_, [], by simp [length_tileSites, Plane.tileSide, Plane.firstSample], (List.append_nil _).symm⟩

/-- Where a position stands among the samples of its macroblock. -/
theorem getElem?_mbSites {c : FrameSpec} {p : Plane} {i j : Nat} (hp : c.hasPlane p = true) (mbX mbY : Nat)
    (hi : i < p.tileSide) (hj : j < p.tileSide) :
    (mbSites c mbX mbY)[p.firstSample + (j * p.tileSide + i)]? =
      some (p, p.tileSide * mbX + i, p.tileSide * mbY + j) := by
  obtain ⟨before, after, hbefore, hsites⟩ := exists_mbSites_eq_append hp mbX mbY
  have hlt := rowMajor_lt hi hj
  rw [hsites, ← hbefore, List.append_assoc, List.getElem?_append_right (by omega),
    Nat.add_sub_cancel_left, List.getElem?_append_left (by rwa [length_tileSites])]
  exact getElem?_rowMajor _ hi hj

/-- Where the sample shown at a picture position stands among those of its macroblock. -/
theorem State.getElem?_shownSamples {s : State} {c : FrameSpec} {p : Plane} (hp : c.hasPlane p = true)
    (x y : Nat) : (s.shownSamples c (x / p.tileSide, y / p.tileSide))[
      p.firstSample + p.tileSide * (y % p.tileSide) + x % p.tileSide]? = some (Claims.shown s c p x y) := by
  have hpos : 0 < p.tileSide := by cases p <;> decide
  rw [Nat.add_assoc, Nat.mul_comm, State.shownSamples, List.getElem?_map,
    getElem?_mbSites hp _ _ (Nat.mod_lt x hpos) (Nat.mod_lt y hpos), Option.map_some]
  simp only [Nat.div_add_mod]

/-! ## Bits at a position -/

/-- What stands between two strings is found after the length of the first. -/
theorem bitsAt_append {before l after : List Bool} {start n : Nat} (h : start + n ≤ l.length) :
    Claims.bitsAt (before ++ l ++ after) (before.length + start) n = Claims.bitsAt l start n := by
  rw [Claims.bitsAt, Claims.bitsAt, List.append_assoc, List.drop_length_add_append,
    List.drop_append_of_le_length (by omega), List.take_append_of_le_length (by rw [List.length_drop]; omega)]

/-- Fields of one width stand at the multiples of it. -/
theorem bitsAt_flatMap_msbFirst {l : List Nat} {k v : Nat} (n : Nat) (h : l[k]? = some v) :
    Claims.bitsAt (l.flatMap fun v => msbFirst v n) (k * n) n = msbFirst v n := by
  obtain ⟨hk, rfl⟩ := List.getElem?_eq_some_iff.mp h
  have hstart : ((l.take k).flatMap fun v => msbFirst v n).length = k * n := by
    rw [length_sampleBits, List.length_take_of_le hk.le]
  have hsplit : (l.flatMap fun v => msbFirst v n) = ((l.take k).flatMap fun v => msbFirst v n) ++
      msbFirst l[k] n ++ (l.drop (k + 1)).flatMap fun v => msbFirst v n := by
    conv_lhs => rw [← List.take_append_drop k l, List.drop_eq_getElem_cons hk]
    rw [List.flatMap_append, List.flatMap_cons, List.append_assoc]
  rw [hsplit, ← hstart]
  refine (bitsAt_append (start := 0) (by simp)).trans ?_
  simp [Claims.bitsAt]

/-! ## Macroblocks in the buffer (44_rasterizer.md R183, R187) -/

/-- `mb_type` of I_PCM is the code of 25 (30_encoding.md R83). -/
theorem ueBits_mbTypeIPcm :
    ueBits mbTypeIPcm = [false, false, false, false, true, true, false, true, false] := by decide

/-- Where the samples of the next macroblock begin: after `mb_type`, at the next boundary
(44_rasterizer.md R188). -/
def BitBuffer.sampleStart (b : BitBuffer) : Nat := 8 * ceilDiv (b.bitPos + 9) 8

/-- Macroblocks whose samples have been read, one after another (44_rasterizer.md R187). -/
def BitBuffer.mbPcms (b : BitBuffer) (d : BitDepth) (ls : List (List Nat)) : BitBuffer :=
  ls.foldl (fun b l => b.mbPcm d l) b

section
variable {b : BitBuffer} {c : FrameSpec} {l : List Nat} {ls : List (List Nat)}

theorem BitBuffer.mbPcms_cons (d : BitDepth) : b.mbPcms d (l :: ls) = (b.mbPcm d l).mbPcms d ls := rfl

theorem BitBuffer.wf_mbPcms (d : BitDepth) (h : b.wf = true) : (b.mbPcms d ls).wf = true :=
  BitBuffer.wf_foldl_mbPcm d ls h

/-- The samples of a macroblock stand where `sampleStart` says, up to the end of the buffer. -/
theorem BitBuffer.exists_bits_mbPcm_eq_append (d : BitDepth) (l : List Nat) (h : b.wf = true) :
    ∃ before, before.length = b.sampleStart ∧
      (b.mbPcm d l).bits = before ++ l.flatMap fun v => msbFirst v d.bits := by
  refine ⟨b.bits ++ ueBits mbTypeIPcm ++ alignmentZeros (b.used.val + 9), ?_, ?_⟩
  · have hmod := b.bitPos_mod h
    simp only [List.length_append, b.length_bits h, length_ueBits, ueLength_mbType,
      length_alignmentZeros, BitBuffer.sampleStart, ceilDiv]
    omega
  · simp only [b.bits_mbPcm d l h, mbPcmBits, List.append_assoc]

/-- Macroblocks only append. -/
theorem BitBuffer.bits_prefix_mbPcms (d : BitDepth) (h : b.wf = true) :
    b.bits <+: (b.mbPcms d ls).bits := by
  induction ls generalizing b with
  | nil => exact List.prefix_rfl
  | cons l ls ih =>
    calc b.bits <+: (b.mbPcm d l).bits := b.bits_mbPcm d l h ▸ List.prefix_append ..
      _ <+: (b.mbPcms d (l :: ls)).bits := ih (b.wf_mbPcm d l h)

/-- A macroblock and what precedes the samples of the next take the same room each time: the samples are
whole bytes, and from a boundary `mb_type` and the zeros are 16 bits (44_rasterizer.md R188). -/
theorem BitBuffer.sampleStart_mbPcm (h : b.wf = true) (hl : l.length = 256 + 128 * c.chroma.code) :
    (b.mbPcm c.depth l).sampleStart =
      b.sampleStart + ((256 + 128 * c.chroma.code) * c.depth.bits + 16) := by
  have hbytes := sampleBits_whole_bytes c
  have hmod := b.bitPos_mod h
  rw [BitBuffer.sampleStart, b.bitPos_mbPcm c h hl, BitBuffer.sampleStart, FrameSpec.mbBits, ceilDiv,
    ceilDiv]
  generalize (256 + 128 * c.chroma.code) * c.depth.bits = m at *
  omega

/-- Sample `i` of macroblock `k` stands at the bit R188 computes. -/
theorem BitBuffer.bitsAt_mbPcms {k i v : Nat} (h : b.wf = true)
    (hlen : ∀ l ∈ ls, l.length = 256 + 128 * c.chroma.code) (hk : ls[k]? = some l) (hi : l[i]? = some v) :
    Claims.bitsAt (b.mbPcms c.depth ls).bits
      (b.sampleStart + k * ((256 + 128 * c.chroma.code) * c.depth.bits + 16) + i * c.depth.bits)
      c.depth.bits = msbFirst v c.depth.bits := by
  induction ls generalizing b k with
  | nil => simp at hk
  | cons m ls ih =>
    have hm := hlen m (by simp)
    cases k with
    | zero =>
      obtain rfl : m = l := by simpa using hk
      obtain ⟨before, hbefore, hbits⟩ := b.exists_bits_mbPcm_eq_append c.depth m h
      obtain ⟨after, hafter⟩ := BitBuffer.bits_prefix_mbPcms (ls := ls) c.depth (b.wf_mbPcm c.depth m h)
      have hfits : i * c.depth.bits + c.depth.bits ≤
          (m.flatMap fun v => msbFirst v c.depth.bits).length := by
        rw [length_sampleBits, ← Nat.succ_mul]
        exact Nat.mul_le_mul_right _ (List.getElem?_eq_some_iff.mp hi).1
      rw [BitBuffer.mbPcms_cons, ← hafter, hbits, Nat.zero_mul, Nat.add_zero, ← hbefore,
        bitsAt_append hfits, bitsAt_flatMap_msbFirst _ hi]
    | succ k =>
      rw [BitBuffer.mbPcms_cons, ← ih (b.wf_mbPcm c.depth m h) (fun l hl => hlen l (by simp [hl]))
        (by simpa using hk), BitBuffer.sampleStart_mbPcm h hm, Nat.succ_mul]
      congr 1
      omega

end

/-! ## The commands performed -/

/-- Every check of the rasterizer passes on a list of macroblocks, and `t` is `s` with them written. -/
def State.Writes (s : State) (c : FrameSpec) (mbs : List (Nat × Nat)) (t : State) : Prop :=
  (∃ f, s.frame = some f) ∧ s.phase = .rbspOpen ∧ ∃ ls, collect (s.mbSamples c) mbs = some ls ∧
    ls.all (samplesInRange c.depth) = true ∧
    capacityHolds s.config.bufCap (s.rbsp.mbPcms c.depth ls).buf.length = true ∧
    t = s.afterWrite (s.rbsp.mbPcms c.depth ls)

section
variable {s t : State} {c : FrameSpec} {mbs : List (Nat × Nat)}

/-- The capacity check of `m` bits is that of the bytes they end in (40_bitwriter.md R107). -/
theorem State.bitsFit_eq_capacityHolds {b : BitBuffer} {m : Nat} (hw : b.wf = true)
    (hp : b.bitPos = s.rbsp.bitPos + m) : s.bitsFit m = capacityHolds s.config.bufCap b.buf.length := by
  rw [b.length_buf hw, hp, State.bitsFit]

/-- What the rasterizer's two commands share: one is performed exactly when it writes its macroblocks, where
`m` counts the bits they take. -/
theorem performed_iff_writes {i : Instr} {body : FrameSpec → Result} {m : Nat}
    (hi : exec i s = command s (withFrame s body))
    (hbody : body c = writeMacroblocks s c m (collect (s.mbSamples c) mbs)) (hs : s.fault = false)
    (hw : s.rbsp.wf = true) (hc : s.cfg = some c)
    (hm : ∀ ls, collect (s.mbSamples c) mbs = some ls →
      (s.rbsp.mbPcms c.depth ls).bitPos = s.rbsp.bitPos + m) :
    (exec i s = .next t ∧ t.fault = false) ↔ s.Writes c mbs t := by
  have hfit := fun ls hls =>
    State.bitsFit_eq_capacityHolds (s.rbsp.wf_mbPcms (ls := ls) c.depth hw) (hm ls hls)
  rw [hi, command_of_ok _ hs]
  constructor
  · rintro ⟨h, ht⟩
    rcases withFrame_next h with rfl | ⟨c', f, hc', hf, hp, h⟩
    · simp at ht
    obtain rfl : c' = c := Option.some.inj (hc'.symm.trans hc)
    rcases macroblocks_next (hbody ▸ h) with ⟨k, rfl⟩ | ⟨ls, hls, hr, hcap, rfl⟩
    · simp at ht
    exact ⟨⟨f, hf⟩, hp, ls, hls, hr, hfit ls hls ▸ hcap, rfl⟩
  · rintro ⟨⟨f, hf⟩, hp, ls, hls, hr, hcap, rfl⟩
    rw [withFrame_of_ok hc hf hp, hbody, hls, writeMacroblocks, if_neg (not_not.mpr hr),
      if_neg (not_not.mpr ((hfit ls hls).trans hcap))]
    exact ⟨rfl, hs⟩

/-- `MBPCM` writes its one macroblock (44_rasterizer.md R183). -/
theorem exec_mbpcm_performed_iff {x y : BitVec 16} (hs : s.fault = false) (hw : s.rbsp.wf = true)
    (hc : s.cfg = some c) (hx : x.toNat < c.mbw) (hy : y.toNat < c.mbh) :
    (exec (.mbpcm x y) s = .next t ∧ t.fault = false) ↔ s.Writes c [(x.toNat, y.toNat)] t := by
  refine performed_iff_writes rfl (if_neg (by omega)) hs hw hc fun ls hls => ?_
  obtain ⟨l, rfl⟩ := List.length_eq_one_iff.mp (collect_length hls)
  exact s.rbsp.bitPos_mbPcm c hw (length_of_mem_mbSamples hls l (by simp))

/-- `PICPCM` writes all macroblocks of the picture (44_rasterizer.md R187). -/
theorem exec_picpcm_performed_iff (hs : s.fault = false) (hw : s.rbsp.wf = true) (hc : s.cfg = some c)
    (hn : 0 < c.nmb) :
    (exec .picpcm s = .next t ∧ t.fault = false) ↔ s.Writes c c.mbOrder t :=
  performed_iff_writes rfl rfl hs hw hc fun _ hls => BitBuffer.bitPos_picture hw hls hn

/-- With the configured planes, samples in range and room, the samples the macroblocks show are written. -/
theorem writes_shownSamples {f : FrameDims} {m : Nat} (hw : s.rbsp.wf = true) (hp : s.phase = .rbspOpen)
    (hf : s.frame = some f) (hold : Claims.PlanesHold s c)
    (hr : ∀ mb ∈ mbs, Claims.MacroblockInRange s c mb.1 mb.2)
    (hm : (s.rbsp.mbPcms c.depth (mbs.map (s.shownSamples c))).bitPos = s.rbsp.bitPos + m)
    (hroom : Claims.roomFor s.config.bufCap (ceilDiv (s.rbsp.bitPos + m) 8)) :
    s.Writes c mbs (s.afterWrite (s.rbsp.mbPcms c.depth (mbs.map (s.shownSamples c)))) := by
  refine ⟨⟨f, hf⟩, hp, _, State.collect_mbSamples_eq_shownSamples hold mbs, ?_, ?_, rfl⟩
  · simpa using fun x y h => samplesInRange_shownSamples (hr (x, y) h)
  · rw [← State.bitsFit_eq_capacityHolds (s.rbsp.wf_mbPcms c.depth hw) hm]
    exact State.bitsFit_iff_roomFor.mpr hroom

/-! ## Macroblocks one after another (44_rasterizer.md R187) -/

theorem collect_cons_eq_some_iff {α β : Type} {f : α → Option β} {a : α} {l : List α} {r : List β} :
    collect f (a :: l) = some r ↔ ∃ b bs, f a = some b ∧ collect f l = some bs ∧ r = b :: bs := by
  simp only [collect_some_iff, List.map_cons]
  cases r <;> simp

/-- The bytes in use do not become fewer. -/
theorem BitBuffer.length_buf_le_mbPcms {b : BitBuffer} (d : BitDepth) (ls : List (List Nat))
    (h : b.wf = true) : b.buf.length ≤ (b.mbPcms d ls).buf.length := by
  have hpos := (b.bits_prefix_mbPcms (ls := ls) d h).length_le
  rw [b.length_bits h, BitBuffer.length_bits (b.wf_mbPcms d h)] at hpos
  rw [b.length_buf h, BitBuffer.length_buf (b.wf_mbPcms d h)]
  exact ceilDiv_le_ceilDiv hpos 8

theorem capacityHolds_of_le {cap : Option Nat} {m n : Nat} (hmn : m ≤ n) (h : capacityHolds cap n = true) :
    capacityHolds cap m = true :=
  capacityHolds_iff_roomFor.mpr fun k hk => hmn.trans (capacityHolds_iff_roomFor.mp h k hk)

/-- Writing macroblocks is writing the first and then the others. -/
theorem writes_cons_iff {mb : Nat × Nat} (hw : s.rbsp.wf = true) :
    s.Writes c (mb :: mbs) t ↔ ∃ u, s.Writes c [mb] u ∧ u.Writes c mbs t := by
  constructor
  · rintro ⟨hf, hp, ls, hls, hr, hcap, rfl⟩
    obtain ⟨l, ls, hl, hrest, rfl⟩ := collect_cons_eq_some_iff.mp hls
    rw [List.all_cons, Bool.and_eq_true] at hr
    have hfirst : collect (s.mbSamples c) [mb] = some [l] :=
      collect_cons_eq_some_iff.mpr ⟨l, [], hl, rfl, rfl⟩
    have hshorter := BitBuffer.length_buf_le_mbPcms c.depth ls (s.rbsp.wf_mbPcm c.depth l hw)
    exact ⟨_, ⟨hf, hp, [l], hfirst, by simpa using hr.1, capacityHolds_of_le hshorter hcap, rfl⟩,
      hf, hp, ls, hrest, hr.2, hcap, rfl⟩
  · rintro ⟨_, ⟨hf, hp, ls, hls, hr, -, rfl⟩, -, -, ls', hrest, hr', hcap, rfl⟩
    obtain ⟨l, _, hl, hnil, rfl⟩ := collect_cons_eq_some_iff.mp hls
    cases hnil
    have hall : (l :: ls').all (samplesInRange c.depth) = true := by
      rw [List.all_cons, hr', Bool.and_true]
      simpa using hr
    exact ⟨hf, hp, l :: ls', collect_cons_eq_some_iff.mpr ⟨l, ls', hl, hrest, rfl⟩, hall, hcap, rfl⟩

/-- What the state keeps while macroblocks are written. -/
theorem State.Writes.keeps {u : State} (h : s.Writes c mbs u) (hw : s.rbsp.wf = true) :
    u.fault = s.fault ∧ u.cfg = s.cfg ∧ u.rbsp.wf = true := by
  obtain ⟨-, -, ls, -, -, -, rfl⟩ := h
  exact ⟨rfl, rfl, s.rbsp.wf_mbPcms c.depth hw⟩

theorem runMacroblocks_nil_iff : Claims.runMacroblocks [] s = some t ↔ s = t := Option.some_inj

theorem FrameSpec.mbw_lt (c : FrameSpec) : c.mbw < 2 ^ 16 := by
  have := c.width.isLt
  simp only [FrameSpec.mbw, ceilDiv]
  omega

theorem FrameSpec.mbh_lt (c : FrameSpec) : c.mbh < 2 ^ 16 := by
  have := c.height.isLt
  simp only [FrameSpec.mbh, ceilDiv]
  omega

/-- A legal picture has a macroblock. -/
theorem FrameSpec.Legal.nmb_pos (h : c.Legal) : 0 < c.nmb := by
  have hw : c.width.toNat ≠ 0 := fun h0 => h.width (BitVec.eq_of_toNat_eq h0)
  have hh : c.height.toNat ≠ 0 := fun h0 => h.height (BitVec.eq_of_toNat_eq h0)
  refine Nat.mul_pos ?_ ?_
  · simp only [FrameSpec.mbw, ceilDiv]; omega
  · simp only [FrameSpec.mbh, ceilDiv]; omega

theorem FrameSpec.lt_of_mem_mbOrder {mb : Nat × Nat} (h : mb ∈ c.mbOrder) :
    mb.1 < c.mbw ∧ mb.2 < c.mbh := by
  simp only [FrameSpec.mbOrder, List.mem_flatMap, List.mem_map, List.mem_range] at h
  obtain ⟨y, hy, x, hx, rfl⟩ := h
  exact ⟨hx, hy⟩

/-- `MBPCM` on the operands that name a macroblock of the picture. -/
theorem exec_mbpcm_ofNat_performed_iff {x y : Nat} (hs : s.fault = false) (hw : s.rbsp.wf = true)
    (hc : s.cfg = some c) (hin : x < c.mbw ∧ y < c.mbh) :
    (exec (.mbpcm (BitVec.ofNat 16 x) (BitVec.ofNat 16 y)) s = .next t ∧ t.fault = false) ↔
      s.Writes c [(x, y)] t := by
  have hx : (BitVec.ofNat 16 x).toNat = x := Nat.mod_eq_of_lt (hin.1.trans c.mbw_lt)
  have hy : (BitVec.ofNat 16 y).toNat = y := Nat.mod_eq_of_lt (hin.2.trans c.mbh_lt)
  rw [exec_mbpcm_performed_iff hs hw hc (hx.symm ▸ hin.1) (hy.symm ▸ hin.2), hx, hy]

/-- A run writes its first macroblock and goes on from there, or ends where that was not performed. -/
theorem runMacroblocks_cons_iff {mb : Nat × Nat} (hs : s.fault = false) (hw : s.rbsp.wf = true)
    (hc : s.cfg = some c) (hin : mb.1 < c.mbw ∧ mb.2 < c.mbh) :
    Claims.runMacroblocks (mb :: mbs) s = some t ↔
      ∃ u, s.Writes c [mb] u ∧ Claims.runMacroblocks mbs u = some t := by
  obtain ⟨x, y⟩ := mb
  simp only [← exec_mbpcm_ofNat_performed_iff hs hw hc hin, Claims.runMacroblocks]
  cases exec (.mbpcm (BitVec.ofNat 16 x) (BitVec.ofNat 16 y)) s with
  | next u => cases hu : u.fault <;> simp [hu]
  | fault => simp
  | refused => simp

/-- `MBPCM` for one macroblock after another writes them all. -/
theorem runMacroblocks_eq_some_iff_writes {mb : Nat × Nat} (hs : s.fault = false) (hw : s.rbsp.wf = true)
    (hc : s.cfg = some c) (hin : ∀ m ∈ mb :: mbs, m.1 < c.mbw ∧ m.2 < c.mbh) :
    Claims.runMacroblocks (mb :: mbs) s = some t ↔ s.Writes c (mb :: mbs) t := by
  induction mbs generalizing s mb with
  | nil =>
    rw [runMacroblocks_cons_iff hs hw hc (hin mb (by simp))]
    simp only [runMacroblocks_nil_iff, exists_eq_right]
  | cons mb' mbs ih =>
    rw [runMacroblocks_cons_iff hs hw hc (hin mb (by simp)), writes_cons_iff hw]
    refine exists_congr fun u => and_congr_right fun hu => ?_
    obtain ⟨hfault, hcfg, hwf⟩ := hu.keeps hw
    exact ih (hfault.trans hs) hwf (hcfg.trans hc) fun m hm => hin m (List.mem_cons_of_mem _ hm)

end

end Sys2Proof.Machine

namespace Sys2Proof.Proofs

open Sys2Proof.Machine Sys2Proof.Claims

/-! ## The obligations -/

/-- Settles O25: the command writes its one macroblock, and the samples it reads are those it shows. -/
theorem mbpcmAppendsTheMacroblock : Obligations.MbpcmAppendsTheMacroblock := by
  intro x y c f s hs hw hp hc hf hx hy hold hr hroom
  have hwrites := writes_shownSamples (mbs := [(x.toNat, y.toNat)]) hw hp hf hold (by simpa using hr)
    (s.rbsp.bitPos_mbPcm c hw (State.length_shownSamples _)) hroom
  have hexec := ((exec_mbpcm_performed_iff hs hw hc hx hy).mpr hwrites).1
  have hmod := s.rbsp.bitPos_mod hw
  refine ⟨(8 - (s.rbsp.used.val + 9) % 8) % 8, Nat.mod_lt _ (by decide), by omega, _, hexec,
    s.rbsp.wf_mbPcms c.depth hw, ?_⟩
  rw [← flatMap_shownSamples_eq_macroblockSampleBits (x.toNat, y.toNat), ← ueBits_mbTypeIPcm,
    List.append_assoc]
  exact s.rbsp.bits_mbPcm c.depth _ hw

/-- Settles O26: macroblock by macroblock the samples start where R188 says, and inside one they stand in
the order of its positions. -/
theorem picpcmPlacesEveryPixel : Obligations.PicpcmPlacesEveryPixel := by
  intro c f s hs hinv hp hc hf hold hr hroom
  have hw := (hinv.buffers hs).rbsp
  have hn := (hinv.cfg c hc).nmb_pos
  have hpos := BitBuffer.bitPos_picture hw (State.collect_mbSamples_eq_shownSamples hold c.mbOrder) hn
  have hwrites := writes_shownSamples (mbs := c.mbOrder) hw hp hf hold
    (fun mb _ => macroblockInRange_of_pictureInRange hr mb.1 mb.2) hpos hroom
  obtain ⟨bits, hbits⟩ := s.rbsp.bits_prefix_mbPcms (ls := c.mbOrder.map (s.shownSamples c)) c.depth hw
  have hwf := s.rbsp.wf_mbPcms (ls := c.mbOrder.map (s.shownSamples c)) c.depth hw
  refine ⟨bits, ⟨_, ((exec_picpcm_performed_iff hs hw hc hn).mpr hwrites).1, hwf, hbits.symm⟩, ?_,
    fun p x y hplane hx hy => ?_⟩
  · have hlength := congrArg List.length hbits
    rw [List.length_append, s.rbsp.length_bits hw, BitBuffer.length_bits hwf] at hlength
    exact Nat.add_left_cancel (hlength.trans hpos)
  · have hcol : x / p.tileSide < c.mbw := Nat.div_lt_of_lt_mul hx
    have hrow : y / p.tileSide < c.mbh := Nat.div_lt_of_lt_mul hy
    have hmb : (c.mbOrder.map (s.shownSamples c))[y / p.tileSide * c.mbw + x / p.tileSide]? =
        some (s.shownSamples c (x / p.tileSide, y / p.tileSide)) := by
      rw [List.getElem?_map, FrameSpec.mbOrder, getElem?_rowMajor Prod.mk hcol hrow, Option.map_some]
    rw [hbits, field_eq_msbFirst]
    exact BitBuffer.bitsAt_mbPcms hw
      (length_of_mem_mbSamples (State.collect_mbSamples_eq_shownSamples hold c.mbOrder)) hmb
      (State.getElem?_shownSamples hplane x y)

/-- Settles O27: both write the macroblocks of the picture, whose numbers give row and column. -/
theorem picpcmIsTheMacroblocksInRasterOrder : Obligations.PicpcmIsTheMacroblocksInRasterOrder := by
  intro c s t hs hinv hc
  have hw := (hinv.buffers hs).rbsp
  have hn := (hinv.cfg c hc).nmb_pos
  rw [← c.mbOrder_eq, exec_picpcm_performed_iff hs hw hc hn]
  have hin := fun mb => FrameSpec.lt_of_mem_mbOrder (c := c) (mb := mb)
  cases horder : c.mbOrder with
  | nil => simp [← length_mbOrder, horder] at hn
  | cons mb mbs => exact (runMacroblocks_eq_some_iff_writes hs hw hc (horder ▸ hin)).symm

/-- Settles O16: the lengths asked for are those of the configured planes. -/
theorem frameIsDeclared : Obligations.FrameIsDeclared := by
  intro c s hs hc hy hchroma
  refine exec_frame hs hc fun p => State.planeMatches_iff.mpr fun hp => ?_
  cases p with
  | y => exact hy
  | cb => exact (hchroma (beq_iff_eq.mp hp)).1
  | cr => exact (hchroma (beq_iff_eq.mp hp)).2

end Sys2Proof.Proofs
end

section
/-! PROOFS. The configuration (45_config.md): when `CFG` is performed and what it leaves, and that no command
but those of the rasterizer depends on frame memory. -/

namespace Sys2Proof.Machine

/-! ## `CFG` performed (45_config.md R211 to R213) -/

@[simp] theorem depthOf_bits (d : BitDepth) : depthOf (BitVec.ofNat 8 d.bits) = some d := by
  cases d <;> rfl

@[simp] theorem chromaOf_code (k : Chroma) : chromaOf (BitVec.ofNat 8 k.code) = some k := by
  cases k <;> rfl

/-- An unconfigured block takes every legal configuration, in every phase. -/
theorem exec_cfg {c : FrameSpec} {s : State} (hs : s.fault = false) (hn : s.cfg = none) (hc : c.Legal) :
    exec (.cfg c.width c.height (BitVec.ofNat 8 c.depth.bits) (BitVec.ofNat 8 c.chroma.code)) s =
      .next (State.answer { s with cfg := some c } 0#8 0#64) := by
  obtain ⟨hw, hh, hdk, heven⟩ := hc
  have hdims : ¬ (c.width = 0#16 ∨ c.height = 0#16) := not_or.mpr ⟨hw, hh⟩
  have hodd : ¬ (c.chroma = .yuv420 ∧ (c.width.toNat % 2 = 1 ∨ c.height.toNat % 2 = 1)) := by
    rintro ⟨hy, hor⟩
    obtain ⟨hw2, hh2⟩ := heven hy
    omega
  simp only [exec, execCfg, command_of_ok _ hs, State.cfgValid, hn, Option.isSome_none, Bool.false_eq_true,
    if_false, if_neg hdims, depthOf_bits, chromaOf_code, if_neg hdk, if_neg hodd, respond_eq]

/-! ## Independence of frame memory (20_memory.md R40) -/

/-- Where `r` is a next state, `r'` is that state with other planes. -/
def AgreesUpToPlanes (y cb cr : Memory) (r r' : Result) : Prop :=
  ∀ t, r = .next t → r' = .next (Claims.withPlanes y cb cr t)

section
variable {y cb cr : Memory} {s : State}

theorem AgreesUpToPlanes.respond {r : BitVec 64} :
    AgreesUpToPlanes y cb cr (Machine.respond r s) (Machine.respond r (Claims.withPlanes y cb cr s)) := by
  rintro _ ⟨⟩
  rfl

theorem AgreesUpToPlanes.raise {c : Cause} :
    AgreesUpToPlanes y cb cr (Machine.raise c s) (Machine.raise c (Claims.withPlanes y cb cr s)) := by
  rintro _ ⟨⟩
  rfl

theorem AgreesUpToPlanes.guard {p : Prop} [Decidable p] {c : Cause} {rest rest' : Result}
    (h : AgreesUpToPlanes y cb cr rest rest') :
    AgreesUpToPlanes y cb cr (if p then Machine.raise c s else rest)
      (if p then Machine.raise c (Claims.withPlanes y cb cr s) else rest') := by
  split
  · exact .raise
  · exact h

theorem AgreesUpToPlanes.command {body body' : Result} (h : AgreesUpToPlanes y cb cr body body') :
    AgreesUpToPlanes y cb cr (Machine.command s body)
      (Machine.command (Claims.withPlanes y cb cr s) body') := by
  cases hs : s.fault with
  | true =>
    rw [command_of_fault body hs, command_of_fault body' (s := Claims.withPlanes y cb cr s) hs]
    rintro _ ⟨⟩
    rfl
  | false => rwa [command_of_ok body hs, command_of_ok body' (s := Claims.withPlanes y cb cr s) hs]

end

theorem execCfg_agreesUpToPlanes (w h : BitVec 16) (d k : BitVec 8) (y cb cr : Memory) (s : State) :
    AgreesUpToPlanes y cb cr (execCfg w h d k s) (execCfg w h d k (Claims.withPlanes y cb cr s)) := by
  refine .command (.guard (.guard ?_))
  split
  · exact .guard (.guard .respond)
  · exact .raise

theorem appendCode_agreesUpToPlanes (k : Nat) (y cb cr : Memory) (s : State) :
    AgreesUpToPlanes y cb cr (appendCode k s) (appendCode k (Claims.withPlanes y cb cr s)) :=
  .guard (.guard (.guard .respond))

/-- The checks, the effect and the answer of a command that is none of the rasterizer's do not look at
frame memory, and a fault leaves it alone as well. -/
theorem exec_agreesUpToPlanes {i : Instr} (hframe : ∀ a b, i ≠ .frame a b) (hmbpcm : ∀ a b, i ≠ .mbpcm a b)
    (hpicpcm : i ≠ .picpcm) (y cb cr : Memory) (s : State) :
    AgreesUpToPlanes y cb cr (exec i s) (exec i (Claims.withPlanes y cb cr s)) := by
  cases i with
  | cfg w h d k => exact execCfg_agreesUpToPlanes w h d k y cb cr s
  | frame a b => exact absurd rfl (hframe a b)
  | u => exact .command (.guard (.guard (.guard (.guard .respond))))
  | ue v => exact .command (appendCode_agreesUpToPlanes v.toNat y cb cr s)
  | se v => exact .command (appendCode_agreesUpToPlanes (seCodeNum v.toInt) y cb cr s)
  | align0 => exact .command (.guard .respond)
  | bitpos => exact .command .respond
  | aligned => exact .command .respond
  | trail => exact .command (.guard (.guard .respond))
  | epb => exact .command (.guard (.guard .respond))
  | nal => exact .command (.guard (.guard (.guard (.guard .respond))))
  | mbpcm a b => exact absurd rfl (hmbpcm a b)
  | picpcm => exact absurd rfl hpicpcm

end Sys2Proof.Machine

namespace Sys2Proof.Proofs

open Sys2Proof.Machine Sys2Proof.Claims

/-! ## The obligations -/

/-- Settles O44: performed or faulted, the next state is the other one's but for the planes. -/
theorem onlyTheRasterizerReadsFrameMemory : Obligations.OnlyTheRasterizerReadsFrameMemory := by
  intro i s t y cb cr hframe hmbpcm hpicpcm h
  have hplanes := exec_agreesUpToPlanes hframe hmbpcm hpicpcm y cb cr s t h
  exact ⟨fun _ => hplanes, fun ht => ⟨_, hplanes, ht, rfl, rfl, rfl⟩⟩

/-- Settles O15: a legal configuration passes every check of `CFG`. -/
theorem cfgBindsTheFrameSpec : Obligations.CfgBindsTheFrameSpec := fun _ _ _ _ _ => exec_cfg

end Sys2Proof.Proofs
end

section
/-! PROOFS. Faults (60_exceptions.md): the checks of a command decide its outcome in their order, what fault
entry does, and the faulted state. -/

namespace Sys2Proof.Machine

/-! ## Checks in order (60_exceptions.md R252) -/

/-- `r` is fault entry with the cause of this code (60_exceptions.md R250, R254). -/
def Raises (s : State) (code : BitVec 8) (r : Result) : Prop :=
  ∃ c : Cause, c.code = code ∧ r = .next (s.raised c)

/-- `r` is a next state that has answered with status 0 and latched no fault. -/
def AnswersOk (r : Result) : Prop :=
  ∃ t, r = .next t ∧ t.fault = false ∧ t.response = some ⟨0#8, t.res⟩

/-- `r` is the model's own stop at a read outside a plane, and `stop` holds (log entry 5). -/
def StopsAtRead (stop : Prop) (r : Result) : Prop := r = .fault .outOfPlaneRead ∧ stop

/-- The first check of the list that fails decides `r`; with none `r` is the command performed. Only the
checks with the codes of the sample range and of the capacity can be cut short by a read outside a plane. -/
def DecidedBy (s : State) (stop : Prop) : List (Prop × BitVec 8) → Result → Prop
  | [], r => AnswersOk r ∨ StopsAtRead stop r
  | (p, code) :: rest, r =>
    (¬ p → Raises s code r ∨ (code = 4#8 ∨ code = 8#8) ∧ StopsAtRead stop r) ∧
      (p → DecidedBy s stop rest r)

section
variable {s : State} {stop p : Prop} {code : BitVec 8} {l before after : List (Prop × BitVec 8)}
  {r : Result}

/-! What the order of the checks says of the outcome. -/

theorem DecidedBy.raises (h : DecidedBy s stop (before ++ (p, code) :: after) r)
    (hbefore : ∀ q ∈ before, q.1) (hp : ¬ p) (hstop : code = 4#8 ∨ code = 8#8 → ¬ stop) :
    Raises s code r := by
  induction before with
  | nil => exact (h.1 hp).resolve_right fun ⟨hcode, _, hs⟩ => hstop hcode hs
  | cons q before ih =>
    obtain ⟨hq, hrest⟩ := List.forall_mem_cons.mp hbefore
    exact ih (h.2 hq) hrest

theorem DecidedBy.answersOk (h : DecidedBy s stop l r) (hl : ∀ q ∈ l, q.1) (hstop : ¬ stop) :
    AnswersOk r := by
  induction l with
  | nil => exact h.resolve_right fun hs => hstop hs.2
  | cons q l ih =>
    obtain ⟨hq, hrest⟩ := List.forall_mem_cons.mp hl
    exact ih (h.2 hq) hrest

/-- A fault has the code of one of the checks, whether or not the samples can be read. -/
theorem DecidedBy.cause_mem {t : State} (h : DecidedBy s stop l r) (hr : r = .next t)
    (ht : t.fault = true) : t.cause ∈ l.map Prod.snd := by
  subst hr
  induction l with
  | nil =>
    rcases h with ⟨_, ⟨⟩, hfault, -⟩ | ⟨⟨⟩, -⟩
    simp [ht] at hfault
  | cons q l ih =>
    by_cases hq : q.1
    · exact List.mem_cons_of_mem _ (ih (h.2 hq))
    · rcases h.1 hq with ⟨c, hc, ⟨⟩⟩ | ⟨-, ⟨⟩, -⟩
      exact List.mem_cons.mpr (.inl hc)

/-! How the bodies of the commands run through their checks. -/

theorem DecidedBy.pass (hp : p) (h : DecidedBy s stop l r) : DecidedBy s stop ((p, code) :: l) r :=
  ⟨fun hn => absurd hp hn, fun _ => h⟩

theorem DecidedBy.fail {c : Cause} (hp : ¬ p) (hc : c.code = code := by rfl) :
    DecidedBy s stop ((p, code) :: l) (Machine.raise c s) :=
  ⟨fun _ => .inl ⟨c, hc, rfl⟩, fun h => absurd h hp⟩

theorem DecidedBy.guard {q : Prop} [Decidable q] {c : Cause} {rest : Result} (hq : q ↔ ¬ p)
    (h : DecidedBy s stop l rest) (hc : c.code = code := by rfl) :
    DecidedBy s stop ((p, code) :: l) (if q then Machine.raise c s else rest) := by
  by_cases hp : p
  · rw [if_neg (hq.not.mpr (not_not_intro hp))]
    exact .pass hp h
  · rw [if_pos (hq.mpr hp)]
    exact .fail hp hc

theorem DecidedBy.respond {t : State} {result : BitVec 64} (ht : t.fault = false) :
    DecidedBy s stop [] (Machine.respond result t) :=
  .inl ⟨_, rfl, ht, rfl⟩

theorem DecidedBy.command (hs : s.fault = false) (h : DecidedBy s stop l r) :
    DecidedBy s stop l (Machine.command s r) := by
  rwa [command_of_ok r hs]

/-- The sequence check of the rasterizer's two commands (60_exceptions.md R257). -/
theorem DecidedBy.withFrame {body : FrameSpec → Result}
    (h : ∀ c, s.cfg = some c → DecidedBy s stop l (body c)) :
    DecidedBy s stop ((s.cfgValid = true ∧ s.frameValid = true ∧ s.phase = .rbspOpen, 7#8) :: l)
      (Machine.withFrame s body) := by
  cases hc : s.cfg with
  | none =>
    rw [Machine.withFrame, hc]
    exact .fail (by simp [State.cfgValid, hc])
  | some c =>
    rw [Machine.withFrame, hc]
    refine .guard ?_ (h c hc)
    simp [State.cfgValid, hc, imp_iff_not_or]

end

/-! ## The samples a command reads (44_rasterizer.md R184, R185) -/

section
variable {s : State} {c : FrameSpec}

/-- A sample that is read lies in its plane (20_memory.md R45). -/
theorem Memory.add_le_len_of_readSample {m : Memory} {a n v : Nat} (hn : n ≤ 2)
    (h : m.readSample a n = some v) : a + n ≤ m.len := by
  have hlt : ∀ {k b}, m.read k = some b → k < m.len := fun {k b} hk => by simpa [hk] using m.read_isSome k
  unfold Memory.readSample at h
  split at h
  · cases h
  · next lo hlo =>
    split at h
    · next h1 => exact h1 ▸ hlt hlo
    · split at h
      · cases h
      · next hi hhi =>
        have := hlt hhi
        omega

/-- Whatever planes frame memory holds, a sample that is fetched is the one the macroblock shows. -/
theorem State.eq_shown_of_fetch {site : Plane × Nat × Nat} {v : Nat} (h : s.fetch c site = some v) :
    Claims.shown s c site.1 site.2.1 site.2.2 = v := by
  obtain ⟨p, x, y⟩ := site
  rw [State.fetch] at h
  dsimp only at h ⊢
  rw [Claims.shown]
  split at h
  · rw [if_neg (by omega)]
    exact Option.some.inj h
  · rw [if_pos (by omega)]
    have hlen := Memory.add_le_len_of_readSample c.bps_bounds.2 h
    exact Option.some.inj ((readSample_eq_pixel hlen).symm.trans h)

/-- A collected list holds the values of any total function that extends the partial one. -/
theorem eq_map_of_collect {α β : Type} {f : α → Option β} {g : α → β} {l : List α} {r : List β}
    (hg : ∀ {a b}, f a = some b → g a = b) (h : collect f l = some r) : r = l.map g := by
  induction l generalizing r with
  | nil => exact (Option.some.inj h).symm
  | cons a l ih =>
    obtain ⟨b, bs, hb, hbs, rfl⟩ := collect_cons_eq_some_iff.mp h
    rw [List.map_cons, hg hb, ih hbs]

theorem State.eq_shownSamples_of_mbSamples {mb : Nat × Nat} {l : List Nat}
    (h : s.mbSamples c mb = some l) : s.shownSamples c mb = l :=
  (eq_map_of_collect State.eq_shown_of_fetch h).symm

/-- Every sample position of a plane of the configuration belongs to its macroblock. -/
theorem mem_mbSites_div {p : Plane} (hp : c.hasPlane p = true) (x y : Nat) :
    (p, x, y) ∈ mbSites c (x / p.tileSide) (y / p.tileSide) := by
  have hside : 0 < p.tileSide := by cases p <;> decide
  have htile : (p, x, y) ∈ tileSites p (x / p.tileSide) (y / p.tileSide) := by
    simp only [tileSites, List.mem_flatMap, List.mem_map, List.mem_range]
    exact ⟨y % p.tileSide, Nat.mod_lt _ hside, x % p.tileSide, Nat.mod_lt _ hside,
      by rw [Nat.div_add_mod, Nat.div_add_mod]⟩
  unfold mbSites
  cases p with
  | y => exact List.mem_append_left _ htile
  | cb =>
    rw [if_pos (beq_iff_eq.mp hp)]
    exact List.mem_append_right _ (List.mem_append_left _ htile)
  | cr =>
    rw [if_pos (beq_iff_eq.mp hp)]
    exact List.mem_append_right _ (List.mem_append_right _ htile)

/-- The range check of a macroblock is that of its pixels (44_rasterizer.md R185). -/
theorem samplesInRange_shownSamples_iff {mb : Nat × Nat} :
    samplesInRange c.depth (s.shownSamples c mb) = true ↔ Claims.MacroblockInRange s c mb.1 mb.2 := by
  refine ⟨fun h p x y hp hx hy hmbx hmby => ?_, samplesInRange_shownSamples⟩
  simp only [samplesInRange, State.shownSamples, List.all_map, List.all_eq_true, Function.comp_apply,
    decide_eq_true_eq] at h
  have hshown := h _ (hmbx ▸ hmby ▸ mem_mbSites_div hp x y)
  rwa [Claims.shown, if_pos ⟨hx, hy⟩] at hshown

/-- Every pixel lies in a macroblock of the picture (10_state.md R15). -/
theorem FrameSpec.div_tileSide_mem_mbOrder {p : Plane} {x y : Nat} (hx : x < c.planeWidth p)
    (hy : y < c.planeHeight p) : (x / p.tileSide, y / p.tileSide) ∈ c.mbOrder := by
  simp only [FrameSpec.mbOrder, List.mem_flatMap, List.mem_map, List.mem_range, FrameSpec.mbw,
    FrameSpec.mbh, ceilDiv]
  refine ⟨y / p.tileSide, ?_, x / p.tileSide, ?_, rfl⟩
  · cases p <;> simp only [FrameSpec.planeHeight, Plane.tileSide] at hy ⊢ <;> omega
  · cases p <;> simp only [FrameSpec.planeWidth, Plane.tileSide] at hx ⊢ <;> omega

/-- A picture is in range when its macroblocks are. -/
theorem forall_macroblockInRange_iff :
    (∀ mb ∈ c.mbOrder, Claims.MacroblockInRange s c mb.1 mb.2) ↔ Claims.PictureInRange s c :=
  ⟨fun h p x y hp hx hy =>
    h _ (FrameSpec.div_tileSide_mem_mbOrder hx hy) p x y hp hx hy rfl rfl,
    fun h mb _ => macroblockInRange_of_pictureInRange h mb.1 mb.2⟩

/-- While the block is configured, a check of the configuration is one of that configuration. -/
theorem State.forall_cfg_iff (hc : s.cfg = some c) {p : FrameSpec → Prop} :
    (∀ c', s.cfg = some c' → p c') ↔ p c := by
  simp [hc]

/-- The range check and the capacity check of macroblocks whose samples are read (44_rasterizer.md R185). -/
theorem DecidedBy.writeMacroblocks {m : Nat} {mbs : List (Nat × Nat)} {stop inRange room : Prop}
    (hs : s.fault = false) (hc : s.cfg = some c) (hstop : s.PlaneShort → stop)
    (hrange : inRange ↔ ∀ mb ∈ mbs, Claims.MacroblockInRange s c mb.1 mb.2)
    (hroom : room ↔ Claims.roomFor s.config.bufCap (ceilDiv (s.rbsp.bitPos + m) 8)) :
    DecidedBy s stop [(inRange, 4#8), (room, 8#8)]
      (Machine.writeMacroblocks s c m (collect (s.mbSamples c) mbs)) := by
  cases hls : collect (s.mbSamples c) mbs with
  | none =>
    have hread : StopsAtRead stop (Machine.writeMacroblocks s c m none) :=
      ⟨rfl, hstop ⟨c, hc, not_planesHold_of_collect_eq_none hls⟩⟩
    exact ⟨fun _ => .inr ⟨.inl rfl, hread⟩, fun _ => ⟨fun _ => .inr ⟨.inr rfl, hread⟩, fun _ => .inr hread⟩⟩
  | some ls =>
    obtain rfl := eq_map_of_collect State.eq_shownSamples_of_mbSamples hls
    refine .guard (not_congr ?_) (.guard (not_congr (State.bitsFit_iff_roomFor.trans hroom.symm)) (.respond hs))
    rw [hrange, List.all_map, List.all_eq_true]
    exact forall₂_congr fun mb _ => samplesInRange_shownSamples_iff

end

/-! ## The checks of each command -/

section
variable {s : State} {stop : Prop}

/-- The capacity check of a command that appends `m` bits (40_bitwriter.md R107). -/
theorem State.not_bitsFit_iff {m : Nat} :
    ¬ s.bitsFit m = true ↔ ¬ Claims.roomFor s.config.bufCap (ceilDiv (s.rbsp.bitPos + m) 8) :=
  not_congr State.bitsFit_iff_roomFor

theorem exists_eq_ofNat_bits {d : BitVec 8} (h : d = 8#8 ∨ d = 12#8) :
    ∃ d' : BitDepth, d = BitVec.ofNat 8 d'.bits :=
  h.elim (fun h => ⟨.eight, h⟩) fun h => ⟨.twelve, h⟩

theorem exists_eq_ofNat_code {k : BitVec 8} (h : k = 0#8 ∨ k = 1#8) :
    ∃ k' : Chroma, k = BitVec.ofNat 8 k'.code :=
  h.elim (fun h => ⟨.mono400, h⟩) fun h => ⟨.yuv420, h⟩

theorem ofNat_bits_eq_twelve_iff (d : BitDepth) : BitVec.ofNat 8 d.bits = 12#8 ↔ d = .twelve := by
  cases d <;> decide

theorem ofNat_code_eq_one_iff (k : Chroma) : BitVec.ofNat 8 k.code = 1#8 ↔ k = .yuv420 := by
  cases k <;> decide

theorem execCfg_decidedBy (hs : s.fault = false) (w h : BitVec 16) (d k : BitVec 8) :
    DecidedBy s stop (Claims.checks (.cfg w h d k) s) (execCfg w h d k s) := by
  refine .command hs (.pass rfl (.guard ?_ (.guard ?_ ⟨fun hd => ?_, fun hd =>
    ⟨fun hk => ?_, fun hk => ?_⟩⟩)))
  · rw [Claims.SequenceAccepts, Bool.not_eq_false]
  · rw [not_and_or, not_not, not_not]
  · rw [depthOf_eq_none hd]
    exact .inl ⟨.configurationError, rfl, rfl⟩
  · rw [chromaOf_eq_none hk]
    refine .inl ⟨.configurationError, rfl, ?_⟩
    cases depthOf d <;> rfl
  · obtain ⟨d', rfl⟩ := exists_eq_ofNat_bits hd
    obtain ⟨k', rfl⟩ := exists_eq_ofNat_code hk
    rw [depthOf_bits, chromaOf_code]
    refine .guard ?_ (.guard ?_ (.respond hs))
    · rw [not_not, ofNat_bits_eq_twelve_iff, ofNat_code_eq_one_iff]
    · rw [ofNat_code_eq_one_iff, Classical.not_imp]
      refine and_congr_right fun _ => ?_
      omega

theorem State.planeMatches_y_iff {c : FrameSpec} :
    s.planeMatches c .y = true ↔ s.pixY.len = c.width.toNat * c.height.toNat * c.bps :=
  State.planeMatches_iff.trans ⟨fun h => h rfl, fun h _ => h⟩

/-- The chroma planes are looked at with 4:2:0 only (44_rasterizer.md R181). -/
theorem State.planeMatches_chroma_iff {c : FrameSpec} :
    s.planeMatches c .cb = true ∧ s.planeMatches c .cr = true ↔
      (c.chroma = .yuv420 →
        s.pixCb.len = c.width.toNat / 2 * (c.height.toNat / 2) * c.bps ∧
        s.pixCr.len = c.width.toNat / 2 * (c.height.toNat / 2) * c.bps) := by
  rw [State.planeMatches_iff, State.planeMatches_iff, imp_and]
  exact and_congr (imp_congr_left beq_iff_eq) (imp_congr_left beq_iff_eq)

theorem execFrame_decidedBy (hs : s.fault = false) (fw fh : BitVec 16) :
    DecidedBy s stop (Claims.checks (.frame fw fh) s) (execFrame fw fh s) := by
  refine .command hs (.pass rfl ?_)
  cases hc : s.cfg with
  | none => exact .fail (by simp [Claims.SequenceAccepts, State.cfgValid, hc])
  | some c =>
    refine .pass (by simp [Claims.SequenceAccepts, State.cfgValid, hc]) (.guard ?_ (.guard ?_ (.guard ?_
      (.respond hs))))
    · simp only [Option.some.injEq, forall_eq', not_and_or, ne_eq]
    · simp only [Option.some.injEq, forall_eq', State.planeMatches_y_iff]
    · simp only [Option.some.injEq, forall_eq', ← not_and_or, State.planeMatches_chroma_iff]

theorem appendCode_decidedBy {k : Nat} {p : Prop} (hs : s.fault = false) (hk : 2 ^ 32 - 2 < k ↔ ¬ p) :
    DecidedBy s stop [(s.phase = .rbspOpen, 7#8), (p, 6#8),
      (Claims.roomFor s.config.bufCap (ceilDiv (s.rbsp.bitPos + ueLength k) 8), 8#8)] (appendCode k s) :=
  .guard Iff.rfl (.guard hk (.guard State.not_bitsFit_iff (.respond hs)))

/-- `UE` refuses one operand of its range only (41_expgolomb.md R121). -/
theorem two_pow_sub_two_lt_toNat_iff {v : BitVec 32} : 2 ^ 32 - 2 < v.toNat ↔ ¬ v.toNat ≠ 2 ^ 32 - 1 := by
  have := v.isLt
  omega

/-- `SE` refuses one operand of its range only (41_expgolomb.md R123). -/
theorem two_pow_sub_two_lt_seCodeNum_iff {v : BitVec 32} :
    2 ^ 32 - 2 < seCodeNum v.toInt ↔ ¬ v.toInt ≠ -2 ^ 31 := by
  refine ⟨fun h hv => (seCodeNum_toInt_le hv).not_gt h, fun h => ?_⟩
  rw [not_not.mp h]
  decide

end

/-- The checks of a command, in their order, decide what it does. -/
theorem exec_decidedBy {s : State} (i : Instr) (hs : s.fault = false) :
    DecidedBy s (Claims.ReadsSamples i ∧ s.PlaneShort) (Claims.checks i s) (exec i s) := by
  cases i with
  | cfg w h d k => exact execCfg_decidedBy hs w h d k
  | frame fw fh => exact execFrame_decidedBy hs fw fh
  | u n v =>
    have hn : 64 < n.toNat ↔ ¬ (Instr.u n v).wellFormed = true := by simp [Instr.wellFormed]
    exact .command hs (.guard hn (.guard Iff.rfl (.guard Nat.not_lt.symm
      (.guard State.not_bitsFit_iff (.respond hs)))))
  | ue v => exact .command hs (.pass rfl (appendCode_decidedBy hs two_pow_sub_two_lt_toNat_iff))
  | se v => exact .command hs (.pass rfl (appendCode_decidedBy hs two_pow_sub_two_lt_seCodeNum_iff))
  | align0 => exact .command hs (.pass rfl (.guard Iff.rfl (.respond hs)))
  | bitpos => exact .command hs (.pass rfl (.pass trivial (.respond hs)))
  | aligned => exact .command hs (.pass rfl (.pass trivial (.respond hs)))
  | trail =>
    exact .command hs (.pass rfl (.guard Iff.rfl (.guard (not_congr State.trailFits_iff_roomFor)
      (.respond hs))))
  | epb =>
    exact .command hs (.pass rfl (.guard Iff.rfl (.guard (not_congr capacityHolds_iff_roomFor)
      (.respond hs))))
  | nal ref ty sc =>
    exact .command hs (.guard Iff.rfl (.guard Iff.rfl (.guard not_not.symm (.guard Iff.rfl
      (.respond hs)))))
  | mbpcm x y =>
    refine .command hs (.pass rfl (.withFrame fun c hc => .guard ?_ (.writeMacroblocks hs hc
      (fun hshort => ⟨.inl ⟨x, y, rfl⟩, hshort⟩) ?_ (State.forall_cfg_iff hc))))
    · rw [State.forall_cfg_iff hc]
      omega
    · rw [State.forall_cfg_iff hc, List.forall_mem_singleton]
  | picpcm =>
    refine .command hs (.pass rfl (.withFrame fun c hc => .writeMacroblocks hs hc
      (fun hshort => ⟨.inr rfl, hshort⟩) ?_ (State.forall_cfg_iff hc)))
    rw [State.forall_cfg_iff hc, forall_macroblockInRange_iff]

/-- After the sequence check no check has the code of `SequenceError`. -/
theorem seven_not_mem_codes_after_sequence (i : Instr) (s : State) :
    7#8 ∉ ((Claims.checks i s).drop 2).map Prod.snd := by
  cases i <;> simp [Claims.checks]

theorem Raises.faults {i : Instr} {s : State} {code : BitVec 8} (h : Raises s code (exec i s)) :
    Claims.Faults i s code := by
  obtain ⟨c, rfl, hr⟩ := h
  exact ⟨_, hr, rfl, rfl, rfl, rfl, rfl⟩

/-! ## Fault entry (60_exceptions.md R254) -/

/-- No effect latches a fault: only `raise` does. -/
theorem Effect.fault {i : Instr} {s u : State} (he : Effect i s u) : u.fault = s.fault := by
  cases he <;> rfl

/-- A command that ends faulted, from a state that was not, took a fault. -/
theorem Outcomes.exists_raised {i : Instr} {s t : State} (h : Outcomes s t (Performs i s t))
    (hs : s.fault = false) (ht : t.fault = true) : ∃ c, t = s.raised c := by
  rcases h with ⟨hf, -⟩ | ⟨-, hraised | ⟨u, r, he, rfl⟩⟩
  · simp [hs] at hf
  · exact hraised
  · simp [he.fault, hs] at ht

/-- A presented word that faults enters the fault from the state that has taken it from the port. -/
theorem exists_raised_of_step {s t : State} {w : CommandWord} {rest : List HostEvent}
    (hs : s.fault = false) (hin : s.input = .command w :: rest) (h : step s = .next t)
    (ht : t.fault = true) : ∃ c, t = State.raised { s with input := rest } c := by
  cases hd : decode w with
  | ok i =>
    rw [step_of_decode_ok hin hd] at h
    exact (exec_next h).exists_raised hs ht
  | error e =>
    rw [step_of_decode_error hin hd] at h
    rcases illegalWord_next h with ⟨hf, -⟩ | ⟨-, hraised | hfalse⟩
    · simp [hs] at hf
    · exact hraised
    · exact hfalse.elim

/-! ## The faulted state (60_exceptions.md R255) -/

theorem exec_of_fault {s : State} (i : Instr) (hs : s.fault = true) :
    exec i s = .next (s.answer s.cause 0#64) := by
  cases i <;> exact command_of_fault _ hs

/-- In the faulted state every word, legal or not, is answered with the latched cause. -/
theorem step_of_fault {s : State} {w : CommandWord} {rest : List HostEvent} (hs : s.fault = true)
    (hin : s.input = .command w :: rest) :
    step s = .next (State.answer { s with input := rest } s.cause 0#64) := by
  cases hd : decode w with
  | ok i =>
    rw [step_of_decode_ok hin hd]
    exact exec_of_fault i hs
  | error e =>
    rw [step_of_decode_error hin hd]
    exact command_of_fault _ hs

/-- What stays of a faulted state until the next reset event. -/
structure StaysFaulted (s t : State) : Prop where
  fault : t.fault = true
  cause : t.cause = s.cause
  out : t.out = s.out

/-- Every step but the reset event leaves the faulted state, and presents no reset that was not presented. -/
theorem step_staysFaulted {s t : State} (hs : s.fault = true) (hr : HostEvent.reset ∉ s.input)
    (h : step s = .next t) : StaysFaulted s t ∧ HostEvent.reset ∉ t.input := by
  have hrest : ∀ {e rest}, s.input = e :: rest → HostEvent.reset ∉ rest :=
    fun hin hmem => hr (hin ▸ List.mem_cons_of_mem _ hmem)
  have hword : ∀ {w rest}, s.input = .command w :: rest → StaysFaulted s t ∧ HostEvent.reset ∉ t.input := by
    intro w rest hin
    rw [step_of_fault hs hin] at h
    cases h
    exact ⟨⟨hs, rfl, rfl⟩, hrest hin⟩
  cases step_next h with
  | idle => exact ⟨⟨hs, rfl, rfl⟩, hr⟩
  | command hin => exact hword hin
  | illegal hin => exact hword hin
  | load hin => exact ⟨⟨by simpa using hs, by simp, by simp⟩, by simpa using hrest hin⟩
  | sinkAnswer hin => exact ⟨⟨hs, rfl, rfl⟩, hrest hin⟩
  | reset hin => simp [hin] at hr

theorem run_staysFaulted {n : Nat} {s t : State} (hs : s.fault = true) (hr : HostEvent.reset ∉ s.input)
    (h : Sys2Proof.core.run n s = .next t) : StaysFaulted s t := by
  induction n generalizing s with
  | zero =>
    cases h
    exact ⟨hs, rfl, rfl⟩
  | succ n ih =>
    obtain ⟨u, hu, hrun⟩ := run_succ_next h
    obtain ⟨hsu, hru⟩ := step_staysFaulted hs hr hu
    obtain ⟨fault, cause, out⟩ := ih hsu.fault hru hrun
    exact ⟨fault, cause.trans hsu.cause, out.trans hsu.out⟩

end Sys2Proof.Machine

namespace Sys2Proof.Proofs

open Sys2Proof.Machine Sys2Proof.Claims

/-! ## The obligations -/

/-- Settles O13: the checks decide in their order, and only the samples' planes can cut them short. -/
theorem firstFailingCheckDecidesTheFault : Obligations.FirstFailingCheckDecidesTheFault := by
  intro i s hs
  have hdecided := exec_decidedBy i hs
  refine ⟨fun before p code after hl hbefore hp hold => ?_, fun hall hold => ?_⟩
  · rw [hl] at hdecided
    exact (hdecided.raises hbefore hp fun hcode ⟨hi, c, hc, hshort⟩ => hshort (hold hi hcode c hc)).faults
  · obtain ⟨t, ht, hfault, hresponse⟩ :=
      hdecided.answersOk hall fun ⟨hi, c, hc, hshort⟩ => hshort (hold hi c hc)
    exact ⟨t, ht, hfault, t.res, rfl, hresponse⟩

/-- Settles O12: the sequence check is the second, after the encoding, and no later check has its code. -/
theorem sequenceTableDecidesSequenceError : Obligations.SequenceTableDecidesSequenceError := by
  intro i s hs hi
  obtain ⟨hseq, hrest⟩ := (exec_decidedBy i hs).2 hi
  refine ⟨fun hn => ((hseq hn).resolve_right (by simp)).faults, fun hacc t ht ⟨hfault, hcause⟩ => ?_⟩
  have hmem : t.cause ∈ ((checks i s).drop 2).map Prod.snd := (hrest hacc).cause_mem ht hfault
  exact seven_not_mem_codes_after_sequence i s (hcause ▸ hmem)

/-- Settles O11: the one way a word faults is `raise`, from the state that has taken the word. -/
theorem faultEntryIsPrecise : Obligations.FaultEntryIsPrecise := by
  rintro s t w hs ⟨rest, hin⟩ h ht
  obtain ⟨c, rfl⟩ := exists_raised_of_step hs hin h ht
  exact ⟨c.code_bounds, rfl, rfl, rfl, rfl, rfl, State.raised_plane _ _, rfl, rfl, by rw [hin]; rfl⟩

/-- Settles O10: the answer of the faulted state, and an induction over the run. -/
theorem faultedStateRefusesEverything : Obligations.FaultedStateRefusesEverything := by
  refine ⟨fun s w rest hs hin => step_of_fault hs hin, fun n s t hs hr h => ?_⟩
  obtain ⟨fault, cause, out⟩ := run_staysFaulted hs hr h
  exact ⟨fault, cause, out⟩

/-- Settles O7, by the equations of the port. -/
theorem idleAndSinkStepsChangeNothingElse : Obligations.IdleAndSinkStepsChangeNothingElse :=
  ⟨fun s hin => by simp [step, State.takeInput_nil hin],
    fun s ok rest hin => by simp [step, State.takeInput_cons hin]⟩

end Sys2Proof.Proofs
end

section
/-! PROOFS. The reset event (70_reset_and_hazards.md): what it leaves, what no other step undoes, and which
commands pass the sequence check right after it. -/

namespace Sys2Proof.Machine

section
variable {s t : State}

theorem step_of_reset {rest : List HostEvent} (hin : s.input = .reset :: rest) :
    step s = .next (State.afterReset { s with input := rest }) := by
  simp [step, State.takeInput_cons hin]

/-! ## What only the reset event clears (60_exceptions.md R256) -/

/-- A word taken in the faulted state is refused, and leaves it faulted. -/
theorem Outcomes.fault {performed : Prop} (h : Outcomes s t performed) (hs : s.fault = true) :
    t.fault = true := by
  rcases h with ⟨-, rfl⟩ | ⟨hok, -⟩
  · exact hs
  · simp [hs] at hok

theorem StepTo.fault (hst : StepTo s t) (hr : ¬ Claims.PresentsReset s) (hs : s.fault = true) :
    t.fault = true := by
  cases hst with
  | idle => exact hs
  | command _ _ ho => exact ho.fault hs
  | illegal _ ho => exact ho.fault hs
  | load => simpa using hs
  | sinkAnswer => exact hs
  | reset hin => exact absurd ⟨_, hin⟩ hr

theorem StepTo.cfgValid (hst : StepTo s t) (hr : ¬ Claims.PresentsReset s) (hs : s.cfgValid = true) :
    t.cfgValid = true := by
  rcases hst.cfg hr with hsame | ⟨hn, -⟩
  · rwa [State.cfgValid, hsame]
  · simp [State.cfgValid, hn] at hs

/-! ## The sequence check (60_exceptions.md R257) -/

/-- No effect touches `CAUSE`: only `raise` and the reset event do. -/
theorem Effect.cause {i : Instr} (he : Effect i s t) : t.cause = s.cause := by
  cases he <;> rfl

/-- A command the sequence table accepts never shows `SequenceError`, whatever its operands: an illegal
encoding is refused first, with a cause of its own. -/
theorem cause_ne_seven_of_sequenceAccepts {i : Instr} (hs : s.fault = false) (hc : s.cause ≠ 7#8)
    (hseq : Claims.SequenceAccepts i s) (h : exec i s = .next t) : t.cause ≠ 7#8 := by
  cases hwf : i.wellFormed with
  | false =>
    rw [exec_of_not_wellFormed hs hwf] at h
    cases h
    exact (by decide : Cause.illegalCommand.code ≠ 7#8)
  | true =>
    intro h7
    have hfault := (Proofs.sequenceTableDecidesSequenceError i s hs hwf).2 hseq t h
    rcases exec_next h with ⟨hf, -⟩ | ⟨-, ⟨c, rfl⟩ | ⟨u, r, he, rfl⟩⟩
    · simp [hs] at hf
    · exact hfault ⟨rfl, h7⟩
    · exact hc (he.cause.symm.trans h7)

/-- The commands the sequence table accepts right after reset (70_reset_and_hazards.md R281), but for the
two queries, which it accepts in every state. -/
theorem sequenceAccepts_afterReset (s : State) {i : Instr}
    (hi : (∃ n v, i = .u n v) ∨ (∃ v, i = .ue v) ∨ (∃ v, i = .se v) ∨ i = .align0 ∨ i = .trail ∨
      ∃ w h d c, i = .cfg w h d c) : Claims.SequenceAccepts i s.afterReset := by
  rcases hi with ⟨_, _, rfl⟩ | ⟨_, rfl⟩ | ⟨_, rfl⟩ | rfl | rfl | ⟨_, _, _, _, rfl⟩ <;> rfl

/-- The commands it refuses there, none for its encoding: nothing is configured, and the phase is `OPEN`. -/
theorem refused_afterReset (s : State) {i : Instr}
    (hi : (∃ a b, i = .frame a b) ∨ (∃ a b, i = .mbpcm a b) ∨ i = .picpcm ∨ i = .epb ∨
      ∃ r ty sc, i = .nal r ty sc ∧ i.wellFormed = true) :
    i.wellFormed = true ∧ ¬ Claims.SequenceAccepts i s.afterReset := by
  have hcfg : ¬ s.afterReset.cfgValid = true := Bool.false_ne_true
  rcases hi with ⟨_, _, rfl⟩ | ⟨_, _, rfl⟩ | rfl | rfl | ⟨_, _, _, rfl, hwf⟩
  · exact ⟨rfl, hcfg⟩
  · exact ⟨rfl, fun ⟨h, _⟩ => hcfg h⟩
  · exact ⟨rfl, fun ⟨h, _⟩ => hcfg h⟩
  · exact ⟨rfl, fun hphase => nomatch hphase⟩
  · exact ⟨hwf, fun hphase => nomatch hphase⟩

end

end Sys2Proof.Machine

namespace Sys2Proof.Proofs

open Sys2Proof.Machine Sys2Proof.Claims

/-! ## The obligations -/

/-- Settles O8: the state after reset field by field, what every other kind of step keeps, and that only
`NAL` delivers. -/
theorem resetEventAndItsUniqueness : Obligations.ResetEventAndItsUniqueness := by
  refine ⟨?_, fun s t h hr => ⟨(step_next h).fault hr, (step_next h).cfgValid hr⟩, fun s t h hout => ?_⟩
  · rintro s ⟨rest, hin⟩
    exact ⟨_, step_of_reset hin, rfl, rfl, rfl, rfl, rfl, rfl, rfl, rfl, rfl, rfl⟩
  · by_contra hn
    refine hout (out_of_step_not_presentsNal (fun ⟨w, rest, ref, ty, sc, hin, hd⟩ => ?_) h)
    exact hn ⟨w, ref, ty, sc, ⟨rest, hin⟩, hd⟩

/-- Settles O9: the sequence table decides, and after reset nothing is configured and the phase is
`OPEN`. -/
theorem factsRightAfterReset : Obligations.FactsRightAfterReset := by
  rintro s t ⟨rest, hin⟩ h
  obtain rfl : State.afterReset { s with input := rest } = t := by simpa [step_of_reset hin] using h
  refine ⟨rfl, rfl, ⟨_, exec_bitpos rfl, rfl⟩, ⟨_, exec_aligned rfl, rfl⟩, fun i hi => ?_,
    fun i hi => ?_⟩
  · have hreads : ¬ ReadsSamples i := by rintro (⟨x, y, rfl⟩ | rfl) <;> simp at hi
    obtain ⟨u, hu⟩ := (exec_answers hreads _).resolve_right fun hstop => hstop.2
    exact ⟨u, hu, cause_ne_seven_of_sequenceAccepts rfl (by decide : 0#8 ≠ 7#8)
      (sequenceAccepts_afterReset _ hi) hu⟩
  · obtain ⟨hwf, hseq⟩ := refused_afterReset _ hi
    exact (sequenceTableDecidesSequenceError i _ rfl hwf).1 hseq

end Sys2Proof.Proofs
end
